-- ==== Sys2Proof/Word.lean ====
section
/-! DEFINITION. The byte, and byte sequences as lists whose index is the offset (spec/00_scope.md section 6.2).
Wider scalars of the ports (u4, u11, u32, u64) are written as bit vectors of that width where they stand. -/

namespace Sys2Proof

/-- A byte is a u8 (R9, section 6.2; R30: "a byte is 8 bits"). -/
abbrev Byte := BitVec 8

/-- The header's `base_payload` field: exactly 8 bytes (R59). -/
abbrev BasePayload := Vector Byte 8

/-- `zeros(k)`: the sequence of `k` bytes all equal to 0 (R9, section 6.2). -/
abbrev zeros (k : Nat) : List Byte := List.replicate k 0#8

end Sys2Proof
end

