-- ==== Sys2Proof/Config.lean ====
section
/-! DEFINITION. What is fixed for one block: the source's constants (R7) and the two open parameters (R8).
The parameters are held in State as a strap; their value at reset is an opaque constant, so no proof can see it. -/

namespace Sys2Proof

/-- The two parameters R8 leaves OPEN: the byte FT_J1939_DATA and the largest `raw_len` of the FR.PARSE port. -/
structure Params where
  ftJ1939Data : Byte
  rawMax      : Nat
  deriving DecidableEq, Repr

/-- The constraints R8 puts on them: FT_J1939_DATA is greater than 2 (so none of 0, 1, 2); RAW_MAX is at least 2063. -/
abbrev Params.Legal (p : Params) : Prop :=
  2 < p.ftJ1939Data.toNat ∧ 2063 ≤ p.rawMax

namespace Config

/-- `EXT_FLAG` (R7): bit 29, the extended flag of the wire identifier. -/
def extFlag : BitVec 32 := 0x20000000#32

/-- `STD_MASK` (R7): the 11 identifier bits of a standard frame. -/
def stdMask : BitVec 32 := 0x000007FF#32

/-- `EXT_MASK` (R7): the 29 identifier bits of an extended frame. -/
def extMask : BitVec 32 := 0x1FFFFFFF#32

/-- `FT_CAN_DATA` (R7). -/
def ftCanData : Byte := 0x00#8

/-- `FT_CAN_REMOTE` (R7). -/
def ftCanRemote : Byte := 0x01#8

/-- `FT_CAN_BUS_ERROR` (R7). -/
def ftCanBusError : Byte := 0x02#8

/-- `INFO_LEN_MASK` (R7), at the 11 bits of a payload length. -/
def infoLenMask : BitVec 11 := 0x07#11

/-- `INFO_LEN_SHIFT` (R7). -/
def infoLenShift : Nat := 8

/-- `HEADER_SIZE` (R7). -/
def headerSize : Nat := 24

/-- `BASE_PAYLOAD_SIZE` (R7). -/
def basePayloadSize : Nat := 8

/-- `PAD_QUANTUM` (R7): the length of the payload unit is a multiple of this. -/
def padQuantum : Nat := 8

/-- `MAX_PAYLOAD` (R7): the largest payload the decoder can produce. -/
def maxPayload : Nat := 2047

/-- `SER_MAX_PAYLOAD` (R7): the largest payload the encoder accepts. -/
def serMaxPayload : Nat := 255

/-- `TS_WRITTEN` (R7): the timestamp the encoder writes. -/
def tsWritten : BitVec 64 := 0#64

/-- `FLAGS_WRITTEN` (R7): the flags byte the encoder writes. -/
def flagsWritten : Byte := 0#8

/-- `INFO_WRITTEN` (R7): the info byte the encoder writes. -/
def infoWritten : Byte := 0#8

/-- Which of the 253 byte values above 2 is FT_J1939_DATA. DESIGN CHOICE (log entry 1): the source gives no number (D5),
so nothing in Lean can see this one. -/
opaque ftJ1939Index : Fin 253

/-- How far RAW_MAX lies above its least value 2063. DESIGN CHOICE (log entry 2): no number is given (D7). -/
opaque rawMaxExtra : Nat

/-- The configured value of the two parameters, as the strap holds it at reset (R23: "its configured value"). -/
def params : Params where
  ftJ1939Data := BitVec.ofNat 8 (3 + ftJ1939Index.val)
  rawMax := 2063 + rawMaxExtra

end Config

end Sys2Proof
end

