-- ==== Sys2Proof/Syntax.lean ====
section
/-! DEFINITION. The records of R14, R16, R17 and R19, and Instr: one constructor per row of spec/opcode_table.json
(nine operations with their operands, seven unassigned codes, five frame-type rows). -/

namespace Sys2Proof

/-- LogicalFrame: exactly six fields (R14). -/
structure LogicalFrame where
  timestamp     : BitVec 64
  identifier    : BitVec 32
  isExtended    : Bool
  isRemoteFrame : Bool
  isErrorFrame  : Bool
  payload       : List Byte
  deriving DecidableEq, Repr

/-- The six header fields that are operands of a frame-type row: RawFrameHeader less its `frame_type` (R51). -/
structure HeaderFields where
  timestamp        : BitVec 64
  identifier       : BitVec 32
  flags            : Byte
  info             : Byte
  payloadLengthLow : Byte
  basePayload      : BasePayload
  deriving DecidableEq, Repr

/-- RawFrameHeader: the seven fields of the 24-byte header record (R16, R51). -/
structure RawFrameHeader extends HeaderFields where
  frameType : Byte
  deriving DecidableEq, Repr

/-- The frame-type map's five rows (R63). -/
inductive FrameType where
  | canData | canRemote | canBusError | j1939Data | other
  deriving DecidableEq, Repr

/-- The operand lines of the request port, those of every operation side by side (R19). Which of them a request
reads is the operation's choice. DESIGN CHOICE (log entry 8): their arrangement on wires is not specified. -/
structure Operands where
  rawId       : BitVec 32
  identifier  : BitVec 32
  isExtended  : Bool
  n           : BitVec 11
  payload     : List Byte
  basePayload : BasePayload
  unit        : List Byte
  raw         : List Byte
  frame       : LogicalFrame
  deriving DecidableEq, Repr

/-- The lines of a cleared request port (R71: "an idle or cleared request port"). -/
def Operands.cleared : Operands where
  rawId := 0
  identifier := 0
  isExtended := false
  n := 0
  payload := []
  basePayload := Vector.replicate 8 0#8
  unit := []
  raw := []
  frame := ⟨0, 0, false, false, false, []⟩

/-- One request: the operation select `op` and the operands (R17). -/
structure Request where
  op       : BitVec 4
  operands : Operands
  deriving DecidableEq, Repr

/-- One constructor per row of the operation and frame-type table. An operation carries the operands of R19 in its
order; a frame-type row carries the header's other fields and the bytes of RAW from offset 24 on (R51, R60). -/
inductive Instr where
  | idDec (rawId : BitVec 32)
  | idEnc (identifier : BitVec 32) (isExtended : Bool)
  | plTotal (n : BitVec 11)
  | plTrail (n : BitVec 11)
  | plSplit (n : BitVec 11)
  | plPack (payload : List Byte)
  | plUnpack (basePayload : BasePayload) (n : BitVec 11) (unit : List Byte)
  | frParse (raw : List Byte)
  | frSer (frame : LogicalFrame)
  | badOp0
  | badOpA
  | badOpB
  | badOpC
  | badOpD
  | badOpE
  | badOpF
  | frameCanData (h : HeaderFields) (rest : List Byte)
  | frameCanRemote (h : HeaderFields) (rest : List Byte)
  | frameCanBusError (h : HeaderFields) (rest : List Byte)
  | frameJ1939Data (h : HeaderFields) (rest : List Byte)
  | frameOther (frameType : Byte) (h : HeaderFields) (rest : List Byte)
  deriving DecidableEq, Repr

/-- What an instruction is encoded as: a select code with the operand lines (R70), or the bytes of a frame (R50). -/
inductive Encoded where
  | port (request : Request)
  | wire (raw : List Byte)
  deriving DecidableEq, Repr

end Sys2Proof
end

