-- ==== Sys2Proof/Machine/Operands.lean ====
section
/-! DEFINITION. The operand forms of the block: byte order (R32 to R34), the header record (R51), the frame-type map
(R63), the assembly of the payload length (R61) and the payload boundaries (R90 to R94). -/

namespace Sys2Proof.Machine

/-! ### Byte sequences and byte order -/

/-- `s[a:b]`: bytes `a` to `b - 1` (R9, section 6.2). Written only where `b` is at most the length. -/
def slice (s : List Byte) (a b : Nat) : List Byte := (s.drop a).take (b - a)

/-- The number a byte sequence stands for, the lowest offset least significant (R32, R33). -/
def leNat : List Byte → Nat
  | [] => 0
  | b :: bs => b.toNat + 256 * leNat bs

/-- The `n` bytes of `v`, the least significant first (R34). -/
def leBytes : Nat → Nat → List Byte
  | 0, _ => []
  | n + 1, v => BitVec.ofNat 8 v :: leBytes n (v / 256)

/-- `MemRead(addr, n)` of a buffer (R33). Written only where `addr + n` is at most the buffer's length. -/
def memRead (raw : List Byte) (addr n : Nat) : Nat := leNat (slice raw addr (addr + n))

/-- `MemWrite(addr, n, v)` to the output buffer (R34). `out` holds the bytes written so far, from offset 0; a write at
its end extends it. Written only where `addr` is at most the buffer's length (log entry 12). -/
def memWrite (out : List Byte) (addr n v : Nat) : List Byte :=
  out.take addr ++ leBytes n v ++ out.drop (addr + n)

/-- One-byte writes of `bytes` at `addr`, `addr + 1`, … : the two loops of R130, steps 6 and 7. -/
def memWriteRun (out : List Byte) (addr : Nat) : List Byte → List Byte
  | [] => out
  | b :: bs => memWriteRun (memWrite out addr 1 b.toNat) (addr + 1) bs

/-! ### The header record -/

/-- Step 1 of FR.PARSE: unpack the header at offset 0 (R51, R112). Written only where the buffer has 24 bytes. -/
def readHeader (raw : List Byte) : RawFrameHeader where
  timestamp := BitVec.ofNat 64 (memRead raw 0 8)
  identifier := BitVec.ofNat 32 (memRead raw 8 4)
  frameType := BitVec.ofNat 8 (memRead raw 12 1)
  flags := BitVec.ofNat 8 (memRead raw 13 1)
  info := BitVec.ofNat 8 (memRead raw 14 1)
  payloadLengthLow := BitVec.ofNat 8 (memRead raw 15 1)
  basePayload := Vector.ofFn fun i => BitVec.ofNat 8 (memRead raw (16 + i.val) 1)

/-- The header's 24 bytes at offsets 0 to 23 of the output buffer, field by field (R51, R130 step 6). -/
def writeHeader (h : RawFrameHeader) : List Byte :=
  let out := memWrite [] 0 8 h.timestamp.toNat
  let out := memWrite out 8 4 h.identifier.toNat
  let out := memWrite out 12 1 h.frameType.toNat
  let out := memWrite out 13 1 h.flags.toNat
  let out := memWrite out 14 1 h.info.toNat
  let out := memWrite out 15 1 h.payloadLengthLow.toNat
  memWriteRun out 16 h.basePayload.toList

/-! ### The frame-type map and the payload length -/

/-- The row of the frame-type map a `frame_type` byte selects, the default row last (R63). The three fixed values are
tested before FT_J1939_DATA, which is none of them (R8; log entry 13). -/
def classify (p : Params) (t : Byte) : FrameType :=
  if t = Config.ftCanData then .canData
  else if t = Config.ftCanRemote then .canRemote
  else if t = Config.ftCanBusError then .canBusError
  else if t = p.ftJ1939Data then .j1939Data
  else .other

/-- The J1939 length: `((info & 0x07) << 8) | payload_length_low`, a u11 (R61, R125). -/
def extendedLength (info low : Byte) : BitVec 11 :=
  ((info.setWidth 11 &&& Config.infoLenMask) <<< Config.infoLenShift) ||| low.setWidth 11

/-- The logical payload length of a frame (R61). -/
def payloadLength (p : Params) (t info low : Byte) : BitVec 11 :=
  if classify p t = .j1939Data then extendedLength info low else low.setWidth 11

/-! ### The payload boundary calculator -/

/-- `ceil8(n)`: the least multiple of 8 that is at least `n` (R9, R91). -/
def ceil8 (n : Nat) : Nat := 8 * ((n + 7) >>> 3)

/-- `total(n)` (R90). -/
def total (n : Nat) : Nat := if n ≤ 8 then 8 else ceil8 n

/-- `trail(n)` (R92). -/
def trail (n : Nat) : Nat := total n - 8

/-- `unit_len` of `split(n)` (R94). -/
def unitLen (n : Nat) : Nat := if 8 < n then n - 8 else 0

/-- `base_len` of `split(n)` (R94). -/
def baseLen (n : Nat) : Nat := n - unitLen n

end Sys2Proof.Machine
end

