-- ==== Sys2Proof/WellFormed.lean ====
section
/-! DEFINITION. Which instructions can be presented to the block: the port widths of R19 that the types do not
already fix, and the frame-type byte of the default row (R63). -/

namespace Sys2Proof

/-- A payload port carries at most 2047 bytes (R8, LEN_W; R19). -/
def payloadFits (payload : List Byte) : Bool := decide (payload.length ≤ 2047)

/-- The FR.PARSE port carries at most RAW_MAX bytes (R8, R19). -/
def rawFits (p : Params) (raw : List Byte) : Bool := decide (raw.length ≤ p.rawMax)

/-- The `unit` port carries at most RAW_MAX - 24 bytes (R19): the bytes of a RAW after its header. -/
def unitFits (p : Params) (unit : List Byte) : Bool := decide (24 + unit.length ≤ p.rawMax)

/-- `frame_type` bytes of the default row: 3 to 255 other than FT_J1939_DATA (R63 row 5, R126). -/
def isOtherType (p : Params) (t : Byte) : Bool := decide (2 < t.toNat ∧ t ≠ p.ftJ1939Data)

/-- The check of one instruction under the parameters `p`. -/
def Instr.wellFormed (p : Params) : Instr → Bool
  | .idDec _ => true
  | .idEnc _ _ => true
  | .plTotal _ => true
  | .plTrail _ => true
  | .plSplit _ => true
  | .plPack payload => payloadFits payload
  | .plUnpack _ _ unit => unitFits p unit
  | .frParse raw => rawFits p raw
  | .frSer frame => payloadFits frame.payload
  | .badOp0 => true
  | .badOpA => true
  | .badOpB => true
  | .badOpC => true
  | .badOpD => true
  | .badOpE => true
  | .badOpF => true
  | .frameCanData _ rest => unitFits p rest
  | .frameCanRemote _ rest => unitFits p rest
  | .frameCanBusError _ rest => unitFits p rest
  | .frameJ1939Data _ rest => unitFits p rest
  | .frameOther t _ rest => isOtherType p t && unitFits p rest

end Sys2Proof
end

