-- ==== Sys2Proof/Decode.lean ====
section
/-! DEFINITION. Decoding: the select codes of the request port (R70, R71), the frame-type rows of the header (R63), any
bytes of the opcode table; every rejection has a name. After it the encoder. -/

namespace Sys2Proof

/-- Why bytes are no instruction. -/
inductive DecodeError where
  /-- Fewer than 24 bytes: no frame header to decode (R111). -/
  | headerTruncated (supplied : Nat)
  /-- One byte that is no 4-bit select code. -/
  | notASelectCode (code : Byte)
  /-- No byte at all. -/
  | empty
  deriving DecidableEq, Repr

/-- The operation a select code names, with the operand lines it reads (R70, R19, R71): the rows of the opcode table, bit 3
of `op` first. -/
def decodeOp (op : BitVec 4) (x : Operands) : Instr :=
  match op.getLsbD 3, op.getLsbD 2, op.getLsbD 1, op.getLsbD 0 with
  | false, false, false, false => .badOp0
  | false, false, false, true => .idDec x.rawId
  | false, false, true, false => .idEnc x.identifier x.isExtended
  | false, false, true, true => .plTotal x.n
  | false, true, false, false => .plTrail x.n
  | false, true, false, true => .plSplit x.n
  | false, true, true, false => .plPack x.payload
  | false, true, true, true => .plUnpack x.basePayload x.n x.unit
  | true, false, false, false => .frParse x.raw
  | true, false, false, true => .frSer x.frame
  | true, false, true, false => .badOpA
  | true, false, true, true => .badOpB
  | true, true, false, false => .badOpC
  | true, true, false, true => .badOpD
  | true, true, true, false => .badOpE
  | true, true, true, true => .badOpF

/-- The instruction of a request (R17). -/
def decodeRequest (rq : Request) : Instr := decodeOp rq.op rq.operands

/-- The frame-type row a `frame_type` byte selects, with the header's other fields and what follows the header (R63). -/
def rowOf (p : Params) (t : Byte) (h : HeaderFields) (rest : List Byte) : Instr :=
  match Machine.classify p t with
  | .canData => .frameCanData h rest
  | .canRemote => .frameCanRemote h rest
  | .canBusError => .frameCanBusError h rest
  | .j1939Data => .frameJ1939Data h rest
  | .other => .frameOther t h rest

/-- The frame-type row of the frame at offset 0 of a buffer (R50, R51, R63). -/
def decodeWire (p : Params) (raw : List Byte) : Except DecodeError Instr :=
  if raw.length < 24 then .error (.headerTruncated raw.length)
  else
    let h := Machine.readHeader raw
    .ok (rowOf p h.frameType h.toHeaderFields (raw.drop 24))

/-- The instruction of an encoded form. -/
def decode (p : Params) : Encoded → Except DecodeError Instr
  | .port rq => .ok (decodeRequest rq)
  | .wire raw => decodeWire p raw

/-- Any bytes of the opcode table: one byte is a select code with its operand lines cleared, more are a frame. -/
def decodeBytes (p : Params) : List Byte → Except DecodeError Instr
  | [] => .error .empty
  | [b] =>
    if b.toNat < 16 then .ok (decodeOp (b.setWidth 4) .cleared) else .error (.notASelectCode b)
  | b :: c :: bs => decodeWire p (b :: c :: bs)

/-! ### The words of the opcode table -/

/-- The bytes of a table word, byte `k` holding bits `8k + 7` to `8k`: a select code in one byte, a header (the number `H`
of R51) in 24 bytes followed by as many zero bytes as the longest payload unit its length fields can ask for
(log entry 14). -/
def tableBytes (nbits w : Nat) : List Byte :=
  let bytes := Machine.leBytes ((nbits + 7) / 8) w
  if bytes.length < 24 then bytes
  else
    let h := Machine.readHeader bytes
    bytes ++ zeros (Machine.trail (Machine.extendedLength h.info h.payloadLengthLow).toNat)

/-- What the decoder reads from a table word, under the configured parameters. -/
def decodeTableWord (nbits w : Nat) : Option Instr :=
  match decodeBytes Config.params (tableBytes nbits w) with
  | .ok i => some i
  | .error _ => none

/-- The request that presents a table word: a select code on the port with its operand lines cleared, a frame as the RAW
of an FR.PARSE request (log entry 7). -/
def tableRequest (nbits w : Nat) : Request :=
  if (nbits + 7) / 8 ≤ 1 then ⟨BitVec.ofNat 4 w, .cleared⟩
  else ⟨0x8#4, { Operands.cleared with raw := tableBytes nbits w }⟩

/-! ### The encoder -/

/-- The bytes of a frame: its header, then what follows it (R50, R51). -/
def encodeFrame (t : Byte) (h : HeaderFields) (rest : List Byte) : Encoded :=
  .wire (Machine.writeHeader { h with frameType := t } ++ rest)

/-- A select code with operand lines (R70). -/
def encodeOp (op : BitVec 4) (x : Operands) : Encoded := .port ⟨op, x⟩

/-- The encoding of an instruction under the parameters `p`; operand lines its operation does not read are cleared. -/
def encode (p : Params) : Instr → Encoded
  | .idDec rawId => encodeOp 0x1#4 { Operands.cleared with rawId := rawId }
  | .idEnc id ext => encodeOp 0x2#4 { Operands.cleared with identifier := id, isExtended := ext }
  | .plTotal n => encodeOp 0x3#4 { Operands.cleared with n := n }
  | .plTrail n => encodeOp 0x4#4 { Operands.cleared with n := n }
  | .plSplit n => encodeOp 0x5#4 { Operands.cleared with n := n }
  | .plPack payload => encodeOp 0x6#4 { Operands.cleared with payload := payload }
  | .plUnpack base n unit => encodeOp 0x7#4 { Operands.cleared with basePayload := base, n := n, unit := unit }
  | .frParse raw => encodeOp 0x8#4 { Operands.cleared with raw := raw }
  | .frSer frame => encodeOp 0x9#4 { Operands.cleared with frame := frame }
  | .badOp0 => encodeOp 0x0#4 .cleared
  | .badOpA => encodeOp 0xA#4 .cleared
  | .badOpB => encodeOp 0xB#4 .cleared
  | .badOpC => encodeOp 0xC#4 .cleared
  | .badOpD => encodeOp 0xD#4 .cleared
  | .badOpE => encodeOp 0xE#4 .cleared
  | .badOpF => encodeOp 0xF#4 .cleared
  | .frameCanData h rest => encodeFrame Config.ftCanData h rest
  | .frameCanRemote h rest => encodeFrame Config.ftCanRemote h rest
  | .frameCanBusError h rest => encodeFrame Config.ftCanBusError h rest
  | .frameJ1939Data h rest => encodeFrame p.ftJ1939Data h rest
  | .frameOther t h rest => encodeFrame t h rest

end Sys2Proof
end

