-- ==== Sys2Proof/Machine/State.lean ====
section
/-! DEFINITION. The responses of the block (R18, R19, R150 to R155), its State as plain data, and the state after reset
(R23). Nothing outlives a transaction but the strap (R10, R13). -/

namespace Sys2Proof.Machine

/-- The sub-cause `where` of TruncatedFrame: 0 HEADER, 1 PAYLOAD (R152). -/
inductive TruncatedAt where
  | header | payload
  deriving DecidableEq, Repr

/-- The three failures with their info (R150, R152, R153, R154). `supplied` and `needed` are the spec's `have` and `need`. -/
inductive Failure where
  | truncatedFrame (place : TruncatedAt) (supplied needed : Nat)
  | invalidIdentifier (identifier : BitVec 32) (isExtended : Bool)
  | payloadTooLarge (n : Nat)
  deriving DecidableEq, Repr

/-- The result record of each operation (R19). Lengths are numbers; that they fit the port's widths is `Result.Fits`. -/
inductive Result where
  | idDec (identifier : BitVec 32) (isExtended : Bool) (dropped : BitVec 32)
  | idEnc (wireId : BitVec 32)
  | plTotal (total : Nat)
  | plTrail (trail : Nat)
  | plSplit (baseLen unitLen : Nat)
  | plPack (basePayload : BasePayload) (unitPayload : List Byte)
  | plUnpack (payload : List Byte)
  | frParse (frame : LogicalFrame)
  | frSer (out : List Byte)
  deriving DecidableEq, Repr

/-- One response: a result, or a failure with its info, or the refusal BAD_OP; never both (R18, R71, R156). -/
inductive Response where
  | ok (result : Result)
  | failed (failure : Failure)
  | badOp
  deriving DecidableEq, Repr

/-- The state of the block and of its two ports (R23): the parameters' strap; the requests in flight in the order in which
they will be answered (R17, R169; log entry 3); the responses given and not yet taken, oldest first (R18; log entry 4).
There is no register, no program counter, no flag, no mode and no memory (R11 to R13, R22, R30). -/
structure State where
  params    : Params
  inFlight  : List Request
  responses : List Response
  deriving DecidableEq, Repr

/-- The machine stops with no fault: every failure of the block is a response (R156), and "every operation answers; none
hangs" (R162). So this type has no constructor. -/
inductive Fault where
  deriving DecidableEq, Repr

/-- Why an instruction would have no meaning. -/
inductive Refusal where
  /-- Raised by the dispatch for an instruction without a meaning (safe). No arm raises it: every row has its meaning. -/
  | notModelled (mnemonic : String)
  deriving DecidableEq, Repr

/-- Right after reset: no request in flight, no valid response, the strap at its configured value (R23, R180). -/
def State.reset : State where
  params := Config.params
  inFlight := []
  responses := []

end Sys2Proof.Machine
end

