-- ==== Sys2Proof/Machine/Ops.lean ====
section
/-! DEFINITION. The named operations over the state: giving a response, taking a failure (R156), refusing an unassigned
code (R71), and what the outside world does to the ports: issue, take, reset (R17, R18, R180). -/

namespace Sys2Proof.Machine

/-- Give one response: it joins the responses, and nothing else changes (R18, R156: no side effect). -/
def State.respond (r : Response) (s : State) : State := { s with responses := s.responses ++ [r] }

/-- `return v`: status OK and the result (R9, R18). -/
def State.complete (v : Result) (s : State) : State := s.respond (.ok v)

/-- `raise F(info)`, the block's one way of taking an exception (R156): the response carries the failure and its info and
no result; no cause register, no saved pc, no handler, no mode. There is nothing to return from (R158). -/
def State.raise (f : Failure) (s : State) : State := s.respond (.failed f)

/-- An unassigned select code: BAD_OP, no result, no info (R71, R155). -/
def State.refuseOp (s : State) : State := s.respond .badOp

/-- End an operation with its result or with the failure it raised (R9, section 6.3). -/
def State.finish (s : State) : Except Failure Result → State
  | .ok v => s.complete v
  | .error f => s.raise f

/-! ### The caller -/

/-- The caller issues a request: it joins those in flight at place `k` of the order of answering (R17, R169). -/
def State.issue (k : Nat) (rq : Request) (s : State) : State :=
  { s with inFlight := s.inFlight.take k ++ rq :: s.inFlight.drop k }

/-- The caller takes the oldest response: it is gone from the port (R13). -/
def State.takeResponse (s : State) : State := { s with responses := s.responses.tail }

/-- Reset from outside: every transaction in progress is abandoned without a response, the response port holds no valid
response, the strap stays (R23, R180). -/
def State.applyReset (s : State) : State := { s with inFlight := [], responses := [] }

end Sys2Proof.Machine
end

