-- ==== Sys2Proof/Machine/BadOp.lean ====
section
/-! DEFINITION. The seven unassigned select codes (R71, R155): each answers BAD_OP, reads no operand, changes nothing else. -/

namespace Sys2Proof.Machine

/-- Select code `0x0` names no operation (R70, R71). -/
def execBadOp0 (s : State) : Host.Outcome State Fault Refusal := .next s.refuseOp

/-- Select code `0xA` names no operation (R70, R71). -/
def execBadOpA (s : State) : Host.Outcome State Fault Refusal := .next s.refuseOp

/-- Select code `0xB` names no operation (R70, R71). -/
def execBadOpB (s : State) : Host.Outcome State Fault Refusal := .next s.refuseOp

/-- Select code `0xC` names no operation (R70, R71). -/
def execBadOpC (s : State) : Host.Outcome State Fault Refusal := .next s.refuseOp

/-- Select code `0xD` names no operation (R70, R71). -/
def execBadOpD (s : State) : Host.Outcome State Fault Refusal := .next s.refuseOp

/-- Select code `0xE` names no operation (R70, R71). -/
def execBadOpE (s : State) : Host.Outcome State Fault Refusal := .next s.refuseOp

/-- Select code `0xF` names no operation (R70, R71). -/
def execBadOpF (s : State) : Host.Outcome State Fault Refusal := .next s.refuseOp

end Sys2Proof.Machine
end

