-- ==== Sys2Proof/Machine/Flags.lean ====
section
/-! DEFINITION. The block has no condition flag (R13). What it computes of that kind: the two classification flags of a
frame (R119), the frame type selected from them (R134), and the status code of a response (R151). -/

namespace Sys2Proof.Machine

/-- Step 8 of FR.PARSE: `is_remote_frame = (frame_type == CAN_REMOTE)` (R119). -/
def isRemoteType (t : Byte) : Bool := t == Config.ftCanRemote

/-- Step 8 of FR.PARSE: `is_error_frame = (frame_type == CAN_BUS_ERROR)` (R119). -/
def isErrorType (t : Byte) : Bool := t == Config.ftCanBusError

/-- Step 5 of FR.SER: error first, then remote, else data (R134). -/
def selectFrameType (isError isRemote : Bool) : Byte :=
  if isError then Config.ftCanBusError
  else if isRemote then Config.ftCanRemote
  else Config.ftCanData

/-- The 1-bit `where` of a TruncatedFrame: 0 HEADER, 1 PAYLOAD (R152). -/
def TruncatedAt.code : TruncatedAt → BitVec 1
  | .header => 0
  | .payload => 1

/-- The status code of a failure (R151). -/
def Failure.status : Failure → BitVec 3
  | .truncatedFrame _ _ _ => 1
  | .invalidIdentifier _ _ => 2
  | .payloadTooLarge _ => 3

/-- The 3-bit `status` field of a response (R151). -/
def Response.status : Response → BitVec 3
  | .ok _ => 0
  | .failed f => f.status
  | .badOp => 4

end Sys2Proof.Machine
end

