-- ==== Sys2Proof/Machine/IdCodec.lean ====
section
/-! DEFINITION. The identifier codec: ID.DEC (R80, R81) and ID.ENC (R82). -/

namespace Sys2Proof.Machine

/-- The mask an extended flag selects (R80, R82). -/
def idMask (isExtended : Bool) : BitVec 32 := if isExtended then Config.extMask else Config.stdMask

/-- The flag as it stands in the wire identifier: `0x20000000` when extended, else 0 (R82). -/
def idFlag (isExtended : Bool) : BitVec 32 := if isExtended then Config.extFlag else 0

/-- Bit 29 alone decides (R80, R85). -/
def rawIsExtended (rawId : BitVec 32) : Bool := decide (rawId &&& Config.extFlag ≠ 0)

/-- The identifier a wire identifier decodes to (R80). -/
def rawIdentifier (rawId : BitVec 32) : BitVec 32 := rawId &&& idMask (rawIsExtended rawId)

/-- The bits decoding discards (R80, R81). -/
def rawDropped (rawId : BitVec 32) : BitVec 32 :=
  rawId &&& ~~~(idMask (rawIsExtended rawId) ||| Config.extFlag)

/-- Range check and encode (R82). -/
def idEncode (identifier : BitVec 32) (isExtended : Bool) : Except Failure (BitVec 32) :=
  if identifier &&& ~~~idMask isExtended ≠ 0 then .error (.invalidIdentifier identifier isExtended)
  else .ok (identifier ||| idFlag isExtended)

/-- ID.DEC (R80): total over all 32-bit inputs. -/
def execIdDec (rawId : BitVec 32) (s : State) : Host.Outcome State Fault Refusal :=
  .next (s.complete (.idDec (rawIdentifier rawId) (rawIsExtended rawId) (rawDropped rawId)))

/-- ID.ENC (R82). -/
def execIdEnc (identifier : BitVec 32) (isExtended : Bool) (s : State) : Host.Outcome State Fault Refusal :=
  .next (s.finish ((idEncode identifier isExtended).map .idEnc))

end Sys2Proof.Machine
end

