-- ==== Sys2Proof/Machine/Payload.lean ====
section
/-! DEFINITION. The payload boundary calculator and packer: PL.TOTAL (R90), PL.TRAIL (R92), PL.SPLIT (R94), PL.PACK (R98),
PL.UNPACK (R100), and the two pseudo-operations of R74. -/

namespace Sys2Proof.Machine

/-- `base_payload` of PL.PACK, byte by byte: `payload[i]` if `i < n`, else 0 (R98). -/
def packBase (payload : List Byte) : BasePayload := Vector.ofFn fun i => payload.getD i.val 0#8

/-- `unit_payload` of PL.PACK: `payload[8:n] ++ zeros(trail(n) - unit_len)` if `n > 8`, else empty (R98). -/
def packUnit (payload : List Byte) : List Byte :=
  let n := payload.length
  if 8 < n then slice payload 8 n ++ zeros (trail n - unitLen n) else []

/-- PL.UNPACK's pseudocode (R100). `n` is a length; the port's is a u11. -/
def unpack (basePayload : BasePayload) (n : Nat) (unit : List Byte) : Except Failure (List Byte) :=
  if unit.length < unitLen n then .error (.truncatedFrame .payload unit.length (unitLen n))
  else .ok (slice basePayload.toList 0 (baseLen n) ++ slice unit 0 (unitLen n))

/-- PL.TOTAL (R90). -/
def execPlTotal (n : BitVec 11) (s : State) : Host.Outcome State Fault Refusal :=
  .next (s.complete (.plTotal (total n.toNat)))

/-- PL.TRAIL (R92). -/
def execPlTrail (n : BitVec 11) (s : State) : Host.Outcome State Fault Refusal :=
  .next (s.complete (.plTrail (trail n.toNat)))

/-- PL.SPLIT (R94). -/
def execPlSplit (n : BitVec 11) (s : State) : Host.Outcome State Fault Refusal :=
  .next (s.complete (.plSplit (baseLen n.toNat) (unitLen n.toNat)))

/-- PL.PACK (R98): no check of the length. -/
def execPlPack (payload : List Byte) (s : State) : Host.Outcome State Fault Refusal :=
  .next (s.complete (.plPack (packBase payload) (packUnit payload)))

/-- PL.UNPACK (R100). -/
def execPlUnpack (basePayload : BasePayload) (n : BitVec 11) (unit : List Byte) (s : State) :
    Host.Outcome State Fault Refusal :=
  .next (s.finish ((unpack basePayload n.toNat unit).map .plUnpack))

/-- The pseudo-operation `FR.LEN n`: the nominal length of a frame on the wire (R74). -/
def frLen (n : Nat) : Nat := 24 + trail n

/-- The pseudo-operation `PL.PADLEN n`: the padding bytes of the payload unit (R74). -/
def padLen (n : Nat) : Nat := trail n - unitLen n

end Sys2Proof.Machine
end

