-- ==== Sys2Proof/Machine/FrameDecoder.lean ====
section
/-! DEFINITION. The CAN frame decoder: FR.PARSE (R110 to R121), and the five frame-type rows, each FR.PARSE specialised to
one value of the `frame_type` byte (R122 to R126). -/

namespace Sys2Proof.Machine

/-- FR.PARSE's pseudocode, step by step (R110). The missing-unit failure is the spec's decision D8. -/
def parse (p : Params) (raw : List Byte) : Except Failure LogicalFrame :=
  if raw.length < 24 then .error (.truncatedFrame .header raw.length 24)
  else
    let h := readHeader raw
    let n := (payloadLength p h.frameType h.info h.payloadLengthLow).toNat
    if raw.length < 24 + unitLen n then .error (.truncatedFrame .payload raw.length (24 + unitLen n))
    else .ok {
      timestamp := h.timestamp
      identifier := rawIdentifier h.identifier
      isExtended := rawIsExtended h.identifier
      isRemoteFrame := isRemoteType h.frameType
      isErrorFrame := isErrorType h.frameType
      payload := slice h.basePayload.toList 0 (baseLen n) ++ slice raw 24 (24 + unitLen n) }

/-- A failure of PL.UNPACK as FR.PARSE re-reports it: `have` and `need` each increased by 24 (R110). -/
def Failure.overHeader : Failure → Failure
  | .truncatedFrame place supplied needed => .truncatedFrame place (24 + supplied) (24 + needed)
  | .invalidIdentifier identifier isExtended => .invalidIdentifier identifier isExtended
  | .payloadTooLarge n => .payloadTooLarge n

/-- What one frame-type row delivers: the payload of length `n` by `call PL.UNPACK` (R110, closing note), the row's two
flags (R122 to R126), the other fields from the header. -/
def deliver (isRemote isError : Bool) (n : Nat) (h : HeaderFields) (rest : List Byte) : Except Failure LogicalFrame :=
  match unpack h.basePayload n rest with
  | .error f => .error f.overHeader
  | .ok payload => .ok {
      timestamp := h.timestamp
      identifier := rawIdentifier h.identifier
      isExtended := rawIsExtended h.identifier
      isRemoteFrame := isRemote
      isErrorFrame := isError
      payload := payload }

/-- FR.PARSE (R110). -/
def execFrParse (raw : List Byte) (s : State) : Host.Outcome State Fault Refusal :=
  .next (s.finish ((parse s.params raw).map .frParse))

/-- FRAME.CAN_DATA (R122): `n = payload_length_low`, both flags false. -/
def execFrameCanData (h : HeaderFields) (rest : List Byte) (s : State) : Host.Outcome State Fault Refusal :=
  .next (s.finish ((deliver false false h.payloadLengthLow.toNat h rest).map .frParse))

/-- FRAME.CAN_REMOTE (R123): `n = payload_length_low`, the remote flag set. -/
def execFrameCanRemote (h : HeaderFields) (rest : List Byte) (s : State) : Host.Outcome State Fault Refusal :=
  .next (s.finish ((deliver true false h.payloadLengthLow.toNat h rest).map .frParse))

/-- FRAME.CAN_BUS_ERROR (R124): `n = payload_length_low`, the error flag set. -/
def execFrameCanBusError (h : HeaderFields) (rest : List Byte) (s : State) : Host.Outcome State Fault Refusal :=
  .next (s.finish ((deliver false true h.payloadLengthLow.toNat h rest).map .frParse))

/-- FRAME.J1939_DATA (R125): `n = ((info & 7) << 8) | payload_length_low`, both flags false. -/
def execFrameJ1939Data (h : HeaderFields) (rest : List Byte) (s : State) : Host.Outcome State Fault Refusal :=
  .next (s.finish ((deliver false false (extendedLength h.info h.payloadLengthLow).toNat h rest).map .frParse))

/-- FRAME.OTHER (R126, decision D15): delivered as a data frame whatever the type byte. -/
def execFrameOther (_frameType : Byte) (h : HeaderFields) (rest : List Byte) (s : State) :
    Host.Outcome State Fault Refusal :=
  .next (s.finish ((deliver false false h.payloadLengthLow.toNat h rest).map .frParse))

end Sys2Proof.Machine
end

