-- ==== Sys2Proof/Machine/FrameEncoder.lean ====
section
/-! DEFINITION. The CAN frame encoder: FR.SER (R130 to R140). -/

namespace Sys2Proof.Machine

/-- The header FR.SER builds from a frame whose wire identifier is `wireId` (R16, R130 steps 5 and 6, R135): timestamp,
flags and info are written as 0. -/
def serHeader (frame : LogicalFrame) (wireId : BitVec 32) : RawFrameHeader where
  timestamp := Config.tsWritten
  identifier := wireId
  frameType := selectFrameType frame.isErrorFrame frame.isRemoteFrame
  flags := Config.flagsWritten
  info := Config.infoWritten
  payloadLengthLow := BitVec.ofNat 8 frame.payload.length
  basePayload := packBase frame.payload

/-- FR.SER's pseudocode (R130): the length first (R132, R139, decision D10), then the identifier (R133), then the header
and the payload unit. -/
def serialize (frame : LogicalFrame) : Except Failure (List Byte) :=
  let n := frame.payload.length
  if 255 < n then .error (.payloadTooLarge n)
  else
    match idEncode frame.identifier frame.isExtended with
    | .error f => .error f
    | .ok wireId =>
      let out := memWriteRun (writeHeader (serHeader frame wireId)) 24 (packUnit frame.payload)
      .ok (slice out 0 (24 + trail n))

/-- FR.SER (R130). -/
def execFrSer (frame : LogicalFrame) (s : State) : Host.Outcome State Fault Refusal :=
  .next (s.finish ((serialize frame).map .frSer))

end Sys2Proof.Machine
end

