-- ==== Sys2Proof/Machine/Dispatch.lean ====
section
/-! DEFINITION. One arm per row of spec/opcode_table.json. -/

namespace Sys2Proof.Machine

def exec (i : Instr) (s : State) : Host.Outcome State Fault Refusal :=
  match i with
  -- identifier codec
  | .idDec rawId => Sys2Proof.Machine.execIdDec rawId s
  | .idEnc identifier isExtended => Sys2Proof.Machine.execIdEnc identifier isExtended s
  -- payload boundary calculator and packer
  | .plTotal n => Sys2Proof.Machine.execPlTotal n s
  | .plTrail n => Sys2Proof.Machine.execPlTrail n s
  | .plSplit n => Sys2Proof.Machine.execPlSplit n s
  | .plPack payload => Sys2Proof.Machine.execPlPack payload s
  | .plUnpack basePayload n unit => Sys2Proof.Machine.execPlUnpack basePayload n unit s
  -- decoder and encoder
  | .frParse raw => Sys2Proof.Machine.execFrParse raw s
  | .frSer frame => Sys2Proof.Machine.execFrSer frame s
  -- unassigned select codes
  | .badOp0 => Sys2Proof.Machine.execBadOp0 s
  | .badOpA => Sys2Proof.Machine.execBadOpA s
  | .badOpB => Sys2Proof.Machine.execBadOpB s
  | .badOpC => Sys2Proof.Machine.execBadOpC s
  | .badOpD => Sys2Proof.Machine.execBadOpD s
  | .badOpE => Sys2Proof.Machine.execBadOpE s
  | .badOpF => Sys2Proof.Machine.execBadOpF s
  -- frame-type rows
  | .frameCanData h rest => Sys2Proof.Machine.execFrameCanData h rest s
  | .frameCanRemote h rest => Sys2Proof.Machine.execFrameCanRemote h rest s
  | .frameCanBusError h rest => Sys2Proof.Machine.execFrameCanBusError h rest s
  | .frameJ1939Data h rest => Sys2Proof.Machine.execFrameJ1939Data h rest s
  | .frameOther frameType h rest => Sys2Proof.Machine.execFrameOther frameType h rest s

end Sys2Proof.Machine
end

