-- ==== Sys2Proof/Machine/Step.lean ====
section
/-! DEFINITION. One step: the next request in the order of answering is decoded and answered as one atomic step (R17, R41,
R42, R169); a block with no request in flight stays as it is (R180; log entry 6). -/

namespace Sys2Proof.Machine

/-- One step of the block. -/
def step (s : State) : Host.Outcome State Fault Refusal :=
  match s.inFlight with
  | [] => .next s
  | rq :: others => exec (decodeRequest rq) { s with inFlight := others }

/-- `s` with the request that presents a table word as the next one to be answered. -/
def State.withFetchWord (s : State) (nbits w : Nat) : State :=
  { s with inFlight := tableRequest nbits w :: s.inFlight }

end Sys2Proof.Machine
end

