-- ==== Sys2Proof/Safety.lean ====
section
/-! DEFINITION. The terms claims are stated in: valid frames (R15), canonical wire frames (R66), responses that fit their
ports (R19, R96), the invariant of the block, and what a request is answered with when it runs alone (R10, R169). -/

namespace Sys2Proof

open Machine

/-- `identifier & ~mask(is_extended) == 0` (R15 (b)): no bit outside the 11 or 29 bits the flag allows. -/
abbrev IdentifierFits (identifier : BitVec 32) (isExtended : Bool) : Prop :=
  identifier &&& ~~~(if isExtended then 0x1FFFFFFF#32 else 0x000007FF#32) = 0#32

/-- `ser_valid(f)` (R15): the frames the round-trip law is stated over. -/
abbrev LogicalFrame.SerValid (f : LogicalFrame) : Prop :=
  f.payload.length ≤ 255 ∧ IdentifierFits f.identifier f.isExtended ∧ ¬(f.isRemoteFrame = true ∧ f.isErrorFrame = true)

/-- What every delivered LogicalFrame satisfies (R15, last sentence; R127). -/
abbrev LogicalFrame.Delivered (f : LogicalFrame) : Prop :=
  f.payload.length ≤ 2047 ∧ IdentifierFits f.identifier f.isExtended ∧ ¬(f.isRemoteFrame = true ∧ f.isErrorFrame = true)

/-- The byte at an offset of a buffer; written only where the offset is inside it. -/
abbrev byteAt (b : List Byte) (k : Nat) : Byte := b.getD k 0#8

/-- The wire identifier has its reserved bits clear, and bits 28:11 clear when the flag is clear (R54, R66). -/
abbrev CanonicalWireId (w : BitVec 32) : Prop :=
  w &&& 0xC0000000#32 = 0#32 ∧ (w &&& 0x20000000#32 = 0#32 → w &&& 0x1FFFF800#32 = 0#32)

/-- The canonical form of a frame on the wire, clause by clause (R66). -/
abbrev Canonical (b : List Byte) : Prop :=
  b.length = 24 + trail (byteAt b 15).toNat ∧
  (∀ k, k < 8 → byteAt b k = 0#8) ∧
  CanonicalWireId (BitVec.ofNat 32 (memRead b 8 4)) ∧
  (byteAt b 12).toNat ≤ 2 ∧
  byteAt b 13 = 0#8 ∧
  byteAt b 14 = 0#8 ∧
  (∀ i, i < 8 → min (byteAt b 15).toNat 8 ≤ i → byteAt b (16 + i) = 0#8) ∧
  (∀ j, j < trail (byteAt b 15).toNat → (byteAt b 15).toNat - 8 ≤ j → byteAt b (24 + j) = 0#8)

/-- Two sets of operand lines agree on the operands R19 gives the operation a select code names; an unassigned code has
none (R71). -/
abbrev Operands.AgreeFor (op : BitVec 4) (x y : Operands) : Prop :=
  (op = 0x1#4 → x.rawId = y.rawId) ∧
  (op = 0x2#4 → x.identifier = y.identifier ∧ x.isExtended = y.isExtended) ∧
  (op = 0x3#4 ∨ op = 0x4#4 ∨ op = 0x5#4 → x.n = y.n) ∧
  (op = 0x6#4 → x.payload = y.payload) ∧
  (op = 0x7#4 → x.basePayload = y.basePayload ∧ x.n = y.n ∧ x.unit = y.unit) ∧
  (op = 0x8#4 → x.raw = y.raw) ∧
  (op = 0x9#4 → x.frame = y.frame)

namespace Machine

/-- A result lies in the range its operation's port gives it (R19, R96), and is of the form the operation's rule gives
(R80 (d), R82 (e), R66, R127). -/
abbrev Result.Fits : Result → Prop
  | .idDec identifier isExtended dropped =>
      IdentifierFits identifier isExtended ∧ dropped &&& 0x20000000#32 = 0#32 ∧ identifier &&& dropped = 0#32
  | .idEnc wireId => CanonicalWireId wireId
  | .plTotal total => 8 ≤ total ∧ total ≤ 2048 ∧ total % 8 = 0
  | .plTrail trail => trail ≤ 2040 ∧ trail % 8 = 0
  | .plSplit baseLen unitLen => baseLen ≤ 8 ∧ unitLen ≤ 2039
  | .plPack _ unitPayload => unitPayload.length ≤ 2040 ∧ unitPayload.length % 8 = 0
  | .plUnpack payload => payload.length ≤ 2047
  | .frParse frame => frame.Delivered
  | .frSer out => Canonical out

/-- A failure's info says what its rule says (R152, R153, R154), within the port's widths. -/
abbrev Failure.Fits : Failure → Prop
  | .truncatedFrame .header supplied needed => supplied < 24 ∧ needed = 24
  | .truncatedFrame .payload supplied needed => supplied < needed ∧ needed ≤ 2063
  | .invalidIdentifier identifier isExtended => ¬IdentifierFits identifier isExtended
  | .payloadTooLarge n => 255 < n ∧ n ≤ 2047

/-- A response that can stand on the response port. -/
abbrev Response.Fits : Response → Prop
  | .ok result => result.Fits
  | .failed failure => failure.Fits
  | .badOp => True

/-- The invariant of the block: the strap is legal (R8, R13), every request in flight is one the port can carry (R19),
every response not yet taken is one its rules allow. -/
structure State.Inv (s : State) : Prop where
  legal     : s.params.Legal
  requests  : ∀ rq ∈ s.inFlight, (decodeRequest rq).wellFormed s.params = true
  responses : ∀ r ∈ s.responses, r.Fits

/-- How each operation can answer (R162, R71): always OK; or OK or one kind of failure; or BAD_OP alone. A frame-type row
answers as FR.PARSE does. -/
abbrev Response.AllowedFor (r : Response) : Instr → Prop
  | .idDec _ | .plTotal _ | .plTrail _ | .plSplit _ | .plPack _ => ∃ v, r = .ok v
  | .idEnc _ _ => (∃ v, r = .ok v) ∨ ∃ identifier isExtended, r = .failed (.invalidIdentifier identifier isExtended)
  | .plUnpack _ _ _ | .frParse _ | .frameCanData _ _ | .frameCanRemote _ _ | .frameCanBusError _ _
  | .frameJ1939Data _ _ | .frameOther _ _ _ =>
      (∃ v, r = .ok v) ∨ ∃ place supplied needed, r = .failed (.truncatedFrame place supplied needed)
  | .frSer _ =>
      (∃ v, r = .ok v) ∨ (∃ n, r = .failed (.payloadTooLarge n)) ∨
        ∃ identifier isExtended, r = .failed (.invalidIdentifier identifier isExtended)
  | .badOp0 | .badOpA | .badOpB | .badOpC | .badOpD | .badOpE | .badOpF => r = .badOp

/-- The block with this one request in flight and nothing on its response port. -/
def State.alone (p : Params) (rq : Request) : State := ⟨p, [rq], []⟩

/-- What a request is answered with when its transaction runs alone (R169: "each response is what it would be if its
transaction ran alone"). -/
def responseAlone (p : Params) (rq : Request) : Option Response :=
  match step (State.alone p rq) with
  | .next t => t.responses.head?
  | .fault _ => none
  | .refused _ => none

end Machine

end Sys2Proof
end

