-- ==== Sys2Proof/Certificates/Slice0/Obligations.lean ====
section
/-! DEFINITION. The statements for the provers. Each docstring names the rules of spec/ it formalises. The block has no
memory and no register; what a frame statement can say is that the strap, the requests in flight and the earlier
responses are unchanged (R10, R30, R156). -/

open Sys2Proof Sys2Proof.Machine

/-! ### Decoding and encoding -/

/-- R70, R19 (the spec's decisions D2 and D4): the select code of each of the sixteen rows, with the operand lines it
reads. -/
def Obligations.SelectCodesNameTheirOperations : Prop :=
  ∀ x : Operands,
    decodeOp 0x0#4 x = .badOp0 ∧ decodeOp 0x1#4 x = .idDec x.rawId ∧
    decodeOp 0x2#4 x = .idEnc x.identifier x.isExtended ∧ decodeOp 0x3#4 x = .plTotal x.n ∧
    decodeOp 0x4#4 x = .plTrail x.n ∧ decodeOp 0x5#4 x = .plSplit x.n ∧ decodeOp 0x6#4 x = .plPack x.payload ∧
    decodeOp 0x7#4 x = .plUnpack x.basePayload x.n x.unit ∧ decodeOp 0x8#4 x = .frParse x.raw ∧
    decodeOp 0x9#4 x = .frSer x.frame ∧ decodeOp 0xA#4 x = .badOpA ∧ decodeOp 0xB#4 x = .badOpB ∧
    decodeOp 0xC#4 x = .badOpC ∧ decodeOp 0xD#4 x = .badOpD ∧ decodeOp 0xE#4 x = .badOpE ∧ decodeOp 0xF#4 x = .badOpF

/-- Words written out from the tables of R51, R63 and R70: two select codes, the header of vector P8 (a remote frame) and
the header of vector P9 (a bus-error frame), most significant byte first. -/
def Obligations.WrittenOutWordsDecode : Prop :=
  decodeTableWord 8 0x2 = some (.idEnc 0#32 false) ∧
  decodeTableWord 8 0xB = some .badOpB ∧
  decodeTableWord 192 0x000000000000000000000001000007FF0000000000000005 =
    some (.frameCanRemote ⟨5#64, 0x7FF#32, 0#8, 0#8, 0#8, Vector.replicate 8 0#8⟩ []) ∧
  decodeTableWord 192 0xDDCCBBAAEFBEADDE04000002200000010000000000000006 =
    some (.frameCanBusError
      ⟨6#64, 0x20000001#32, 0#8, 0#8, 4#8, #v[0xDE#8, 0xAD#8, 0xBE#8, 0xEF#8, 0xAA#8, 0xBB#8, 0xCC#8, 0xDD#8]⟩ [])

/-- R51 with R63: each header field is read from its own bytes, the lowest offset least significant, and the byte at
offset 12 alone selects the row. -/
def Obligations.HeaderFieldsAtTheirOffsets : Prop :=
  ∀ (p : Params) (b0 b1 b2 b3 b4 b5 b6 b7 b8 b9 b10 b11 b12 b13 b14 b15 b16 b17 b18 b19 b20 b21 b22 b23 : Byte)
    (rest : List Byte), p.Legal →
    let raw := [b0, b1, b2, b3, b4, b5, b6, b7, b8, b9, b10, b11, b12, b13, b14, b15, b16, b17, b18, b19, b20, b21,
      b22, b23] ++ rest
    let h : HeaderFields :=
      { timestamp := b7 ++ b6 ++ b5 ++ b4 ++ b3 ++ b2 ++ b1 ++ b0, identifier := b11 ++ b10 ++ b9 ++ b8,
        flags := b13, info := b14, payloadLengthLow := b15, basePayload := #v[b16, b17, b18, b19, b20, b21, b22, b23] }
    (b12 = 0#8 → decode p (.wire raw) = .ok (.frameCanData h rest)) ∧
    (b12 = 1#8 → decode p (.wire raw) = .ok (.frameCanRemote h rest)) ∧
    (b12 = 2#8 → decode p (.wire raw) = .ok (.frameCanBusError h rest)) ∧
    (b12 = p.ftJ1939Data → decode p (.wire raw) = .ok (.frameJ1939Data h rest)) ∧
    (2 < b12.toNat ∧ b12 ≠ p.ftJ1939Data → decode p (.wire raw) = .ok (.frameOther b12 h rest))

/-- Decode and encode agree, for every well-formed instruction of the table, every operand at every value its port or
header field admits. -/
def Obligations.DecodeInvertsEncode : Prop :=
  ∀ (p : Params) (i : Instr), p.Legal → i.wellFormed p = true → decode p (encode p i) = .ok i

/-- The other direction for frames: decoding a buffer as a frame-type row drops no byte of it. -/
def Obligations.WireDecodingLosesNothing : Prop :=
  ∀ (p : Params) (raw : List Byte) (i : Instr), decode p (.wire raw) = .ok i → encode p i = .wire raw

/-- R17, R19 (decisions D1 and D4): a request is read on the operand lines of its own operation and on no other. -/
def Obligations.RequestReadsOnlyItsOwnOperands : Prop :=
  ∀ (op : BitVec 4) (x y : Operands), x.AgreeFor op y → decodeOp op x = decodeOp op y

/-! ### The step -/

/-- A step decodes the next request in flight and runs the instruction it decodes to, the request taken out (R17, R42;
which request is next is the model's choice, log entry 3). -/
def Obligations.StepRunsTheDecodedRequest : Prop :=
  ∀ (s : State) (rq : Request) (others : List Request), s.inFlight = rq :: others →
    step s = exec (decodeRequest rq) { s with inFlight := others }

/-- The model's choice (log entry 6), resting on R180, "nothing runs after reset until a caller issues a request": with no
request in flight a step changes nothing. -/
def Obligations.IdleStepChangesNothing : Prop :=
  ∀ s : State, s.inFlight = [] → step s = .next s

/-- R122 to R126 with R110: an FR.PARSE request whose buffer holds a frame of a row runs that row. -/
def Obligations.ParseRequestRunsItsFrameRow : Prop :=
  ∀ (s : State) (x : Operands) (others : List Request) (i : Instr), s.params.Legal →
    s.inFlight = ⟨0x8#4, x⟩ :: others → decode s.params (.wire x.raw) = .ok i →
    step s = exec i { s with inFlight := others }

/-- R162, R18, R156, and for the five frame-type rows R122 to R126 (each FR.PARSE specialised): every instruction answers
with exactly one response, of a kind its rule allows, and changes nothing else: the frame of all 21 rows. That the earlier
responses are kept beside the new one is the model's choice, log entry 4. -/
def Obligations.EveryInstructionAnswersOnceAsListed : Prop :=
  ∀ (i : Instr) (s : State), ∃ r : Response,
    exec i s = .next { params := s.params, inFlight := s.inFlight, responses := s.responses ++ [r] } ∧ r.AllowedFor i

/-- R162, "Every operation answers; none hangs", for the step: it always gives a next state, answers exactly the first
request in flight, and leaves the strap and the other requests alone. The model's choices in it: which request is the
first (log entry 3), that all responses are kept and so can be counted (log entry 4), and that a step with no request in
flight is a step that changes neither list (log entry 6). -/
def Obligations.StepAlwaysAnswersTheNextRequest : Prop :=
  ∀ s : State, ∃ t : State, step s = .next t ∧ t.params = s.params ∧ t.inFlight = s.inFlight.tail ∧
    s.responses <+: t.responses ∧ t.responses.length + t.inFlight.length = s.responses.length + s.inFlight.length

/-- R10: the response is a function of the request and of FT_J1939_DATA alone, whatever else the two blocks hold (other
requests, earlier responses and failures, another RAW_MAX). -/
def Obligations.ResponseDependsOnRequestAndStrapAlone : Prop :=
  ∀ (s t : State) (rq : Request) (others others' : List Request),
    s.params.ftJ1939Data = t.params.ftJ1939Data → s.inFlight = rq :: others → t.inFlight = rq :: others' →
    ∃ r : Response, step s = .next { s with inFlight := others, responses := s.responses ++ [r] } ∧
      step t = .next { t with inFlight := others', responses := t.responses ++ [r] }

/-- R169 (decision D20), R158 (decision D12): as many steps as there are requests in flight answer them all, and each
response is what it would be if its transaction ran alone, whichever of the others failed. The model's choices in it: the
responses come in the order of the list of requests, an order R169 leaves open (log entry 3), and all of them are kept
(log entry 4). -/
def Obligations.RunAnswersEveryRequestAsIfAlone : Prop :=
  ∀ s : State, ∃ t : State, Host.Core.run core s.inFlight.length s = .next t ∧ t.inFlight = [] ∧
    t.params = s.params ∧
    t.responses.map some = s.responses.map some ++ s.inFlight.map (responseAlone s.params)

/-- R169 (decision D20), R42 (b): the order in which overlapping requests are answered only reorders the responses. That the
order is a list's is log entry 3, that all responses are kept is log entry 4. -/
def Obligations.AnsweringOrderOnlyReordersResponses : Prop :=
  ∀ s s' : State, s.params = s'.params → s.responses = s'.responses → s.inFlight.Perm s'.inFlight →
    ∃ t t' : State, Host.Core.run core s.inFlight.length s = .next t ∧
      Host.Core.run core s'.inFlight.length s' = .next t' ∧ t.responses.Perm t'.responses

/-! ### Reset and the ports -/

/-- R23, R180 (decision D13): reset from outside discards the requests in flight and the responses and leaves the strap;
the state right after reset has neither. -/
def Obligations.ResetEmptiesThePortsAndKeepsTheStrap : Prop :=
  (∀ s : State, s.applyReset.inFlight = [] ∧ s.applyReset.responses = [] ∧ s.applyReset.params = s.params) ∧
    State.reset.inFlight = [] ∧ State.reset.responses = [] ∧ State.reset.applyReset = State.reset

/-- R182: the first transaction after reset is answered as the same request would be at any other time. -/
def Obligations.FirstTransactionAfterResetIsOrdinary : Prop :=
  ∀ (s t : State) (k : Nat) (rq : Request) (others : List Request),
    t.params = s.params → t.inFlight = rq :: others →
    ∃ r : Response, step (s.applyReset.issue k rq) = .next { s with inFlight := [], responses := [r] } ∧
      step t = .next { t with inFlight := others, responses := t.responses ++ [r] }

/-- R151, R152 (decisions D3 and D8): the status codes, of which 5, 6 and 7 are never produced, and the bit `where`. -/
def Obligations.StatusCodesOfResponses : Prop :=
  (∀ v, (Response.ok v).status = 0#3) ∧
  (∀ c m n, (Response.failed (.truncatedFrame c m n)).status = 1#3) ∧
  (∀ i e, (Response.failed (.invalidIdentifier i e)).status = 2#3) ∧
  (∀ n, (Response.failed (.payloadTooLarge n)).status = 3#3) ∧
  Response.badOp.status = 4#3 ∧
  TruncatedAt.header.code = 0#1 ∧ TruncatedAt.payload.code = 1#1 ∧
  ∀ r : Response, r.status ≠ 5#3 ∧ r.status ≠ 6#3 ∧ r.status ≠ 7#3

/-- R71, R155 (decision D2): an unassigned code answers BAD_OP, with no result and no info, reading no operand and changing nothing
else. -/
def Obligations.UnassignedCodesAnswerBadOp : Prop :=
  ∀ s : State,
    exec .badOp0 s = .next (s.respond .badOp) ∧ exec .badOpA s = .next (s.respond .badOp) ∧
    exec .badOpB s = .next (s.respond .badOp) ∧ exec .badOpC s = .next (s.respond .badOp) ∧
    exec .badOpD s = .next (s.respond .badOp) ∧ exec .badOpE s = .next (s.respond .badOp) ∧
    exec .badOpF s = .next (s.respond .badOp) ∧
    ∀ (op : BitVec 4) (x : Operands), op.toNat = 0 ∨ 10 ≤ op.toNat →
      exec (decodeOp op x) s = .next (s.respond .badOp)

/-! ### Byte order -/

/-- R33: `MemRead(addr, n)` is the little-endian number of the bytes. -/
def Obligations.MemReadIsTheLittleEndianSum : Prop :=
  ∀ (raw : List Byte) (addr n : Nat), addr + n ≤ raw.length →
    memRead raw addr n = ∑ i ∈ Finset.range n, (byteAt raw (addr + i)).toNat * 2 ^ (8 * i)

/-- R34: `MemWrite(addr, n, v)` puts `v[8i+7:8i]` at offset `addr + i`; that every other offset stays as it was, and that
the same place reads back as `v`, follow. The output holds the bytes written so far: that a write which runs past their
end extends it is no word of R34 but the model's reading, log entry 12 (DEDUCED). -/
def Obligations.MemWritePutsEachByteAtItsOffset : Prop :=
  ∀ (out : List Byte) (addr n v : Nat), addr ≤ out.length → v < 2 ^ (8 * n) →
    (∀ i, i < n → byteAt (memWrite out addr n v) (addr + i) = BitVec.ofNat 8 (v >>> (8 * i))) ∧
    (∀ k, k < addr ∨ addr + n ≤ k → byteAt (memWrite out addr n v) k = byteAt out k) ∧
    memRead (memWrite out addr n v) addr n = v

/-- R46: the wire identifier seen one byte at a time: offsets 8 to 11 hold its bytes from the lowest; the extended flag
is mask 0x20 of the byte at offset 11, the reserved bits 31 and 30 are bits 7 and 6 of it; a standard identifier's 11 bits
are the byte at offset 8 and bits 2:0 of the byte at offset 9. -/
def Obligations.WireIdentifierByteView : Prop :=
  ∀ (raw : List Byte) (w : BitVec 32), 12 ≤ raw.length → w = BitVec.ofNat 32 (memRead raw 8 4) →
    byteAt raw 8 = w.extractLsb' 0 8 ∧ byteAt raw 9 = w.extractLsb' 8 8 ∧ byteAt raw 10 = w.extractLsb' 16 8 ∧
    byteAt raw 11 = w.extractLsb' 24 8 ∧
    (w.getLsbD 29 = true ↔ byteAt raw 11 &&& 0x20#8 ≠ 0#8) ∧
    w.getLsbD 31 = (byteAt raw 11).getLsbD 7 ∧ w.getLsbD 30 = (byteAt raw 11).getLsbD 6 ∧
    w.extractLsb' 0 11 = (byteAt raw 9).extractLsb' 0 3 ++ byteAt raw 8

/-! ### Identifier codec -/

/-- R80: the result of ID.DEC, total over all 32-bit inputs; its identifier has no bit outside its mask. -/
def Obligations.IdDecResult : Prop :=
  ∀ (rawId : BitVec 32) (x : Operands) (s : State),
    let ext := decide (rawId &&& 0x20000000#32 ≠ 0#32)
    let mask := if ext then 0x1FFFFFFF#32 else 0x000007FF#32
    decodeOp 0x1#4 x = .idDec x.rawId ∧
    exec (.idDec rawId) s =
      .next (s.respond (.ok (.idDec (rawId &&& mask) ext (rawId &&& ~~~(mask ||| 0x20000000#32))))) ∧
    (rawId &&& mask) &&& ~~~mask = 0#32

/-- R81 (decision D4): what decoding drops: always bits 31 and 30, and bits 28 to 11 when bit 29 is clear; with the identifier and the
flag it makes up the wire identifier, no two of the three sharing a bit. -/
def Obligations.IdDecDropsExactlyTheOtherBits : Prop :=
  ∀ (rawId : BitVec 32) (s : State), ∃ (identifier : BitVec 32) (ext : Bool) (dropped : BitVec 32),
    exec (.idDec rawId) s = .next (s.respond (.ok (.idDec identifier ext dropped))) ∧
    (∀ k, k < 32 → dropped.getLsbD k =
      (rawId.getLsbD k && (k == 31 || k == 30 || (!rawId.getLsbD 29 && decide (11 ≤ k ∧ k ≤ 28))))) ∧
    rawId = identifier ||| (if ext then 0x20000000#32 else 0#32) ||| dropped ∧
    identifier &&& (if ext then 0x20000000#32 else 0#32) = 0#32 ∧ identifier &&& dropped = 0#32 ∧
    dropped &&& (if ext then 0x20000000#32 else 0#32) = 0#32

/-- R82: ID.ENC on every operand: an identifier inside the mask is encoded, to a canonical wire identifier; one outside
it raises InvalidIdentifier. -/
def Obligations.IdEncResult : Prop :=
  ∀ (identifier : BitVec 32) (ext : Bool) (x : Operands) (s : State),
    let mask := if ext then 0x1FFFFFFF#32 else 0x000007FF#32
    let wire := identifier ||| (if ext then 0x20000000#32 else 0#32)
    decodeOp 0x2#4 x = .idEnc x.identifier x.isExtended ∧
    (identifier &&& ~~~mask = 0#32 →
      exec (.idEnc identifier ext) s = .next (s.respond (.ok (.idEnc wire))) ∧ CanonicalWireId wire) ∧
    (identifier &&& ~~~mask ≠ 0#32 →
      exec (.idEnc identifier ext) s = .next (s.respond (.failed (.invalidIdentifier identifier ext))))

/-- R83: encode, then decode, on any two states of the block. -/
def Obligations.EncodedIdentifierDecodesBack : Prop :=
  ∀ (identifier : BitVec 32) (ext : Bool) (wire : BitVec 32) (s t : State),
    exec (.idEnc identifier ext) s = .next (s.respond (.ok (.idEnc wire))) →
    exec (.idDec wire) t = .next (t.respond (.ok (.idDec identifier ext 0#32)))

/-- R84: decode, then encode: it succeeds and clears the dropped bits; it gives the wire identifier back exactly when
nothing was dropped. -/
def Obligations.DecodedIdentifierEncodesToItsCanonicalForm : Prop :=
  ∀ (w : BitVec 32) (s t : State), ∃ (identifier : BitVec 32) (ext : Bool) (dropped : BitVec 32),
    exec (.idDec w) s = .next (s.respond (.ok (.idDec identifier ext dropped))) ∧
    exec (.idEnc identifier ext) t = .next (t.respond (.ok (.idEnc (w &&& ~~~dropped)))) ∧
    (w &&& ~~~dropped = w ↔ dropped = 0#32)

/-! ### Payload boundary calculator and packer -/

/-- R90, R91: PL.TOTAL is 8 up to 8, and above it the least multiple of 8 that is at least `n`; it lies in 8 to 2048. -/
def Obligations.PlTotalIsTheLeastMultiple : Prop :=
  ∀ (n : BitVec 11) (x : Operands) (s : State), decodeOp 0x3#4 x = .plTotal x.n ∧ ∃ t : Nat,
    exec (.plTotal n) s = .next (s.respond (.ok (.plTotal t))) ∧ 8 ≤ t ∧ t ≤ 2048 ∧
    (n.toNat ≤ 8 → t = 8) ∧
    (8 < n.toNat → t % 8 = 0 ∧ n.toNat ≤ t ∧ ∀ m, m % 8 = 0 → n.toNat ≤ m → t ≤ m)

/-- R92: PL.TRAIL is PL.TOTAL less 8; it is a multiple of 8 in 0 to 2040, 0 exactly when `n` is at most 8, and the least
multiple of 8 that holds `n - 8` bytes. -/
def Obligations.PlTrailIsTotalLessEight : Prop :=
  ∀ (n : BitVec 11) (x : Operands) (s : State), decodeOp 0x4#4 x = .plTrail x.n ∧ ∃ t u : Nat,
    exec (.plTotal n) s = .next (s.respond (.ok (.plTotal t))) ∧
    exec (.plTrail n) s = .next (s.respond (.ok (.plTrail u))) ∧
    t = u + 8 ∧ u % 8 = 0 ∧ u ≤ 2040 ∧ (u = 0 ↔ n.toNat ≤ 8) ∧
    n.toNat - 8 ≤ u ∧ ∀ m, m % 8 = 0 → n.toNat - 8 ≤ m → u ≤ m

/-- R94: PL.SPLIT is `(min(n, 8), max(n - 8, 0))`. -/
def Obligations.PlSplitResult : Prop :=
  ∀ (n : BitVec 11) (x : Operands) (s : State), decodeOp 0x5#4 x = .plSplit x.n ∧
    exec (.plSplit n) s = .next (s.respond (.ok (.plSplit (min n.toNat 8) (n.toNat - 8)))) ∧ n.toNat - 8 ≤ 2039

/-- R97, with the numbers of R95: the three calculator operations are mutually consistent for every `n` in 0 to 2047. -/
def Obligations.CalculatorIsConsistent : Prop :=
  ∀ (n : BitVec 11) (s : State), ∃ b u t : Nat,
    exec (.plSplit n) s = .next (s.respond (.ok (.plSplit b u))) ∧
    exec (.plTrail n) s = .next (s.respond (.ok (.plTrail t))) ∧
    b + u = n.toNat ∧ b ≤ 8 ∧ u ≤ t ∧ t - u ≤ 7 ∧ t % 8 = 0 ∧ b + (8 - b) = 8 ∧
    (8 < n.toNat → t - u = (8 - n.toNat % 8) % 8) ∧ (n.toNat ≤ 8 → t - u = 0)

/-- R74: the two pseudo-operations: the nominal length of a frame on the wire is 16 more than the padded payload size, and
the padding is what the unit has beyond its real bytes. -/
def Obligations.PseudoOperationsExpand : Prop :=
  ∀ (n : BitVec 11) (s : State), ∃ t u b v : Nat,
    exec (.plTotal n) s = .next (s.respond (.ok (.plTotal t))) ∧
    exec (.plTrail n) s = .next (s.respond (.ok (.plTrail u))) ∧
    exec (.plSplit n) s = .next (s.respond (.ok (.plSplit b v))) ∧
    frLen n.toNat = 24 + u ∧ frLen n.toNat = t + 16 ∧ padLen n.toNat = u - v ∧ padLen n.toNat ≤ 7

/-- R98: PL.PACK byte by byte; it never fails. R98's payload has 0 to 2047 bytes, all a port can carry; that the same
formula answers for a longer list is the model's choice, log entry 10 (DESIGN CHOICE, unsafe there). -/
def Obligations.PlPackByteByByte : Prop :=
  ∀ (payload : List Byte) (x : Operands) (s : State), decodeOp 0x6#4 x = .plPack x.payload ∧
    ∃ (base : BasePayload) (unit : List Byte),
      exec (.plPack payload) s = .next (s.respond (.ok (.plPack base unit))) ∧
      (∀ i, i < 8 → byteAt base.toList i = if i < payload.length then byteAt payload i else 0#8) ∧
      unit.length = trail payload.length ∧
      (∀ j, j < trail payload.length →
        byteAt unit j = if 8 + j < payload.length then byteAt payload (8 + j) else 0#8)

/-- R100: PL.UNPACK byte by byte when the real unit bytes are there; TruncatedFrame with `where = PAYLOAD` when they are
not (decision D8). -/
def Obligations.PlUnpackByteByByte : Prop :=
  ∀ (base : BasePayload) (n : BitVec 11) (unit : List Byte) (x : Operands) (s : State),
    decodeOp 0x7#4 x = .plUnpack x.basePayload x.n x.unit ∧
    (n.toNat - 8 ≤ unit.length → ∃ payload : List Byte,
      exec (.plUnpack base n unit) s = .next (s.respond (.ok (.plUnpack payload))) ∧
      payload.length = n.toNat ∧
      ∀ i, i < n.toNat → byteAt payload i = if i < 8 then byteAt base.toList i else byteAt unit (i - 8)) ∧
    (unit.length < n.toNat - 8 →
      exec (.plUnpack base n unit) s =
        .next (s.respond (.failed (.truncatedFrame .payload unit.length (n.toNat - 8)))))

/-- R101: unpacking what was packed gives the payload back, from the packed unit or any unit that begins with its real
bytes; packing what was unpacked gives the operands back exactly when their padding is zero and the unit full. -/
def Obligations.PackAndUnpackAreInverse : Prop :=
  (∀ (payload : List Byte) (s t : State), payload.length ≤ 2047 → ∃ (base : BasePayload) (unit : List Byte),
    exec (.plPack payload) s = .next (s.respond (.ok (.plPack base unit))) ∧
    exec (.plUnpack base (BitVec.ofNat 11 payload.length) unit) t = .next (t.respond (.ok (.plUnpack payload))) ∧
    ∀ other : List Byte, other.take (payload.length - 8) = unit.take (payload.length - 8) →
      exec (.plUnpack base (BitVec.ofNat 11 payload.length) other) t = .next (t.respond (.ok (.plUnpack payload)))) ∧
  (∀ (base : BasePayload) (n : BitVec 11) (unit payload : List Byte) (s t : State),
    exec (.plUnpack base n unit) s = .next (s.respond (.ok (.plUnpack payload))) →
    (exec (.plPack payload) t = .next (t.respond (.ok (.plPack base unit))) ↔
      (∀ i, n.toNat ≤ i → i < 8 → byteAt base.toList i = 0#8) ∧ unit.length = trail n.toNat ∧
      (∀ j, n.toNat - 8 ≤ j → j < unit.length → byteAt unit j = 0#8)))

/-! ### Decoder -/

/-- R110, step by step (R111, R113, R117, R119, R120): FR.PARSE on a buffer too short for a header, and on one with the real
bytes of its payload there. What in it is the spec's own and not its source's: the payload as the `n` bytes from offset
16 on (R116, derived), the info `have` and `need` (R152, decision D8), the select code (R70, decision D2), and that a type
byte other than 0, 1, 2 and FT_J1939_DATA is delivered as data (R126, decision D15). -/
def Obligations.FrParseResult : Prop :=
  ∀ (raw : List Byte) (x : Operands) (s : State), s.params.Legal →
    decodeOp 0x8#4 x = .frParse x.raw ∧
    (raw.length < 24 →
      exec (.frParse raw) s = .next (s.respond (.failed (.truncatedFrame .header raw.length 24)))) ∧
    (24 ≤ raw.length →
      let n := if byteAt raw 12 = s.params.ftJ1939Data
        then (byteAt raw 14).toNat % 8 * 256 + (byteAt raw 15).toNat else (byteAt raw 15).toNat
      let w := BitVec.ofNat 32 (memRead raw 8 4)
      let ext := decide (w &&& 0x20000000#32 ≠ 0#32)
      24 + (n - 8) ≤ raw.length →
        exec (.frParse raw) s = .next (s.respond (.ok (.frParse {
          timestamp := BitVec.ofNat 64 (memRead raw 0 8)
          identifier := w &&& (if ext then 0x1FFFFFFF#32 else 0x000007FF#32)
          isExtended := ext
          isRemoteFrame := byteAt raw 12 == 1#8
          isErrorFrame := byteAt raw 12 == 2#8
          payload := (raw.drop 16).take n }))))

/-- R115, the spec's decision D8: with a header but not all the real bytes of the payload unit, FR.PARSE answers
TruncatedFrame with `where = PAYLOAD`. -/
def Obligations.FrParseMissingUnitBytes : Prop :=
  ∀ (raw : List Byte) (s : State), s.params.Legal → 24 ≤ raw.length →
    let n := if byteAt raw 12 = s.params.ftJ1939Data
      then (byteAt raw 14).toNat % 8 * 256 + (byteAt raw 15).toNat else (byteAt raw 15).toNat
    raw.length < 24 + (n - 8) →
      exec (.frParse raw) s =
        .next (s.respond (.failed (.truncatedFrame .payload raw.length (24 + (n - 8)))))

/-- R118 (decision D16): what FR.PARSE ignores. Two buffers that agree outside the flags byte, the ignored info bits, the dropped
identifier bits, the base payload's padding and everything from offset `24 + unit_len` on get the same response. -/
def Obligations.FrParseIgnoresUnusedParts : Prop :=
  ∀ (raw raw' : List Byte) (s : State), 24 ≤ raw.length → 24 ≤ raw'.length →
    let n := if byteAt raw 12 = s.params.ftJ1939Data
      then (byteAt raw 14).toNat % 8 * 256 + (byteAt raw 15).toNat else (byteAt raw 15).toNat
    let w := BitVec.ofNat 32 (memRead raw 8 4)
    let w' := BitVec.ofNat 32 (memRead raw' 8 4)
    (∀ k, k < 8 → byteAt raw k = byteAt raw' k) →
    (w ^^^ w') &&& (if w &&& 0x20000000#32 ≠ 0#32 then 0x3FFFFFFF#32 else 0x200007FF#32) = 0#32 →
    byteAt raw 12 = byteAt raw' 12 →
    (byteAt raw 12 = s.params.ftJ1939Data → (byteAt raw 14).toNat % 8 = (byteAt raw' 14).toNat % 8) →
    byteAt raw 15 = byteAt raw' 15 →
    (∀ i, i < min n 8 → byteAt raw (16 + i) = byteAt raw' (16 + i)) →
    (∀ j, j < n - 8 → byteAt raw (24 + j) = byteAt raw' (24 + j)) →
    (raw.length = raw'.length ∨ 24 + (n - 8) ≤ raw.length ∧ 24 + (n - 8) ≤ raw'.length) →
    exec (.frParse raw) s = exec (.frParse raw') s

/-- R121: 2063 bytes are the most FR.PARSE can need: a buffer of at least that many always parses, and what lies beyond
them changes nothing. -/
def Obligations.FrParseReadsAtMost2063Bytes : Prop :=
  ∀ (raw : List Byte) (s : State), 2063 ≤ raw.length → ∃ f : LogicalFrame,
    exec (.frParse raw) s = .next (s.respond (.ok (.frParse f))) ∧
    exec (.frParse (raw.take 2063)) s = .next (s.respond (.ok (.frParse f)))

/-- R127: what every delivered frame satisfies, and what FR.SER then makes of it. -/
def Obligations.ParsedFrameIsValid : Prop :=
  ∀ (raw : List Byte) (s t : State) (f : LogicalFrame), s.params.Legal →
    exec (.frParse raw) s = .next (s.respond (.ok (.frParse f))) →
    (f.isExtended = false → f.identifier.toNat ≤ 0x7FF) ∧
    (f.isExtended = true → f.identifier.toNat ≤ 0x1FFFFFFF) ∧
    ¬(f.isRemoteFrame = true ∧ f.isErrorFrame = true) ∧
    f.payload.length ≤ 2047 ∧ (byteAt raw 12 ≠ s.params.ftJ1939Data → f.payload.length ≤ 255) ∧
    (f.payload.length ≤ 255 → ∃ out, exec (.frSer f) t = .next (t.respond (.ok (.frSer out)))) ∧
    (255 < f.payload.length →
      exec (.frSer f) t = .next (t.respond (.failed (.payloadTooLarge f.payload.length))))

/-- R122, R123, R124: with the real unit bytes there, each of the three rows delivers the frame with its own two flags; the
length is `payload_length_low` alone. -/
def Obligations.FrameRowsDeliverTheirFlags : Prop :=
  ∀ (h : HeaderFields) (rest : List Byte) (s : State),
    let n := h.payloadLengthLow.toNat
    let ext := decide (h.identifier &&& 0x20000000#32 ≠ 0#32)
    let frame (rtr err : Bool) : LogicalFrame :=
      { timestamp := h.timestamp
        identifier := h.identifier &&& (if ext then 0x1FFFFFFF#32 else 0x000007FF#32)
        isExtended := ext, isRemoteFrame := rtr, isErrorFrame := err
        payload := (h.basePayload.toList ++ rest).take n }
    n - 8 ≤ rest.length →
      exec (.frameCanData h rest) s = .next (s.respond (.ok (.frParse (frame false false)))) ∧
      exec (.frameCanRemote h rest) s = .next (s.respond (.ok (.frParse (frame true false)))) ∧
      exec (.frameCanBusError h rest) s = .next (s.respond (.ok (.frParse (frame false true))))

/-- R126 (the spec's decision D15) and R125 (decision D19): the default row and the J1939 row deliver a frame that looks
like a data frame; the J1939 row's length is `((info & 7) << 8) | payload_length_low`, 0 to 2047. -/
def Obligations.OtherAndJ1939RowsLookLikeData : Prop :=
  ∀ (h : HeaderFields) (rest : List Byte) (t : Byte) (s : State),
    let low := h.payloadLengthLow.toNat
    let long := h.info.toNat % 8 * 256 + h.payloadLengthLow.toNat
    let ext := decide (h.identifier &&& 0x20000000#32 ≠ 0#32)
    let frame (n : Nat) : LogicalFrame :=
      { timestamp := h.timestamp
        identifier := h.identifier &&& (if ext then 0x1FFFFFFF#32 else 0x000007FF#32)
        isExtended := ext, isRemoteFrame := false, isErrorFrame := false
        payload := (h.basePayload.toList ++ rest).take n }
    long ≤ 2047 ∧
    (low - 8 ≤ rest.length →
      exec (.frameOther t h rest) s = .next (s.respond (.ok (.frParse (frame low))))) ∧
    (long - 8 ≤ rest.length →
      exec (.frameJ1939Data h rest) s = .next (s.respond (.ok (.frParse (frame long)))))

/-- R115, the spec's decision D8, for each of the five rows: real unit bytes missing. -/
def Obligations.FrameRowsMissingUnitBytes : Prop :=
  ∀ (h : HeaderFields) (rest : List Byte) (t : Byte) (s : State),
    let missing (n : Nat) := s.respond (.failed (.truncatedFrame .payload (24 + rest.length) (24 + (n - 8))))
    let low := h.payloadLengthLow.toNat
    let long := h.info.toNat % 8 * 256 + h.payloadLengthLow.toNat
    (rest.length < low - 8 →
      exec (.frameCanData h rest) s = .next (missing low) ∧ exec (.frameCanRemote h rest) s = .next (missing low) ∧
      exec (.frameCanBusError h rest) s = .next (missing low) ∧ exec (.frameOther t h rest) s = .next (missing low)) ∧
    (rest.length < long - 8 → exec (.frameJ1939Data h rest) s = .next (missing long))

/-! ### Encoder -/

/-- R130, step by step (R132, R133, R135, R136, R140): FR.SER on every frame. A frame it does not refuse is
written with every byte as the wire format says, padding included, the same for the three frame types it writes; which
type it writes when both flags are set is the next statement's. What in it is the spec's own and not its source's: that the length is
reported whatever the identifier (R139, decision D10), the output's length as a multiple of 8 up to 272 (R137, derived),
and the select code (R70, decision D2). -/
def Obligations.FrSerResult : Prop :=
  ∀ (f : LogicalFrame) (x : Operands) (s : State),
    let n := f.payload.length
    decodeOp 0x9#4 x = .frSer x.frame ∧
    (255 < n → exec (.frSer f) s = .next (s.respond (.failed (.payloadTooLarge n)))) ∧
    (n ≤ 255 → ¬IdentifierFits f.identifier f.isExtended →
      exec (.frSer f) s = .next (s.respond (.failed (.invalidIdentifier f.identifier f.isExtended)))) ∧
    (n ≤ 255 → IdentifierFits f.identifier f.isExtended → ∃ out : List Byte,
      exec (.frSer f) s = .next (s.respond (.ok (.frSer out))) ∧
      out.length = 24 + trail n ∧ out.length % 8 = 0 ∧ out.length ≤ 272 ∧
      (∀ k, k < 8 → byteAt out k = 0#8) ∧
      memRead out 8 4 = (f.identifier ||| (if f.isExtended then 0x20000000#32 else 0#32)).toNat ∧
      (¬(f.isRemoteFrame = true ∧ f.isErrorFrame = true) →
        byteAt out 12 = (if f.isErrorFrame then 2#8 else if f.isRemoteFrame then 1#8 else 0#8)) ∧
      byteAt out 13 = 0#8 ∧ byteAt out 14 = 0#8 ∧ byteAt out 15 = BitVec.ofNat 8 n ∧
      ∀ i, 16 + i < out.length → byteAt out (16 + i) = if i < n then byteAt f.payload i else 0#8)

/-- R134, the spec's decision D11: a frame with both flags set is no failure; it is written as a bus-error frame, byte for
byte as the same frame without the remote flag. -/
def Obligations.ErrorFlagTakesPrecedence : Prop :=
  ∀ (f : LogicalFrame) (s : State), f.payload.length ≤ 255 → IdentifierFits f.identifier f.isExtended →
    f.isRemoteFrame = true → f.isErrorFrame = true → ∃ out : List Byte,
      exec (.frSer f) s = .next (s.respond (.ok (.frSer out))) ∧ byteAt out 12 = 2#8 ∧
      exec (.frSer { f with isRemoteFrame := false }) s = .next (s.respond (.ok (.frSer out)))

/-- R138: frames that differ only in the timestamp serialise to identical bytes. -/
def Obligations.FrSerDoesNotReadTheTimestamp : Prop :=
  ∀ (f : LogicalFrame) (ts : BitVec 64) (s : State), exec (.frSer { f with timestamp := ts }) s = exec (.frSer f) s

/-- R141: serialise, then parse: a valid frame comes back with timestamp 0, whatever FT_J1939_DATA is; one with both flags
set comes back without the remote flag. -/
def Obligations.SerializedFrameParsesBack : Prop :=
  ∀ (f : LogicalFrame) (s t : State), t.params.Legal →
    f.payload.length ≤ 255 → IdentifierFits f.identifier f.isExtended → ∃ out : List Byte,
      exec (.frSer f) s = .next (s.respond (.ok (.frSer out))) ∧
      (f.SerValid →
        exec (.frParse out) t = .next (t.respond (.ok (.frParse { f with timestamp := 0#64 })))) ∧
      (f.isRemoteFrame = true → f.isErrorFrame = true →
        exec (.frParse out) t =
          .next (t.respond (.ok (.frParse { f with timestamp := 0#64, isRemoteFrame := false }))))

/-- R142: parse, then serialise: PayloadTooLarge above 255 bytes; otherwise the canonical form of the buffer, which is
the buffer itself exactly when it is canonical. A type other than 1 and 2 becomes 0. -/
def Obligations.ParsedFrameSerializesToCanonicalForm : Prop :=
  ∀ (raw : List Byte) (f : LogicalFrame) (s t : State), s.params.Legal →
    exec (.frParse raw) s = .next (s.respond (.ok (.frParse f))) →
    (255 < f.payload.length →
      exec (.frSer f) t = .next (t.respond (.failed (.payloadTooLarge f.payload.length)))) ∧
    (f.payload.length ≤ 255 → ∃ out : List Byte,
      exec (.frSer f) t = .next (t.respond (.ok (.frSer out))) ∧ Canonical out ∧ (out = raw ↔ Canonical raw) ∧
      exec (.frParse out) s = .next (s.respond (.ok (.frParse { f with timestamp := 0#64 }))) ∧
      byteAt out 12 = (if byteAt raw 12 = 1#8 ∨ byteAt raw 12 = 2#8 then byteAt raw 12 else 0#8))

/-- R66: the outputs of FR.SER are exactly the canonical byte sequences. -/
def Obligations.EncoderOutputsAreTheCanonicalFrames : Prop :=
  ∀ (b : List Byte) (s : State),
    (∃ f : LogicalFrame, exec (.frSer f) s = .next (s.respond (.ok (.frSer b)))) ↔ Canonical b

/-! ### The invariant -/

/-- R19, R96, R127, R66: every instruction the ports can carry is answered with a response that fits its port and has the
form its rule gives it. -/
def Obligations.EveryAnswerFitsItsPort : Prop :=
  ∀ (i : Instr) (s : State), s.params.Legal → i.wellFormed s.params = true →
    ∃ r : Response, exec i s = .next (s.respond r) ∧ r.Fits

/-- Every step keeps the invariant of the block: a legal strap, requests the ports can carry, responses the rules allow. -/
def Obligations.StepKeepsTheInvariant : Prop :=
  ∀ s s' : State, s.Inv → step s = .next s' → s'.Inv

/-- The state right after reset meets the invariant, whatever the strap's configured value is. -/
def Obligations.ResetMeetsTheInvariant : Prop := State.reset.Inv
end

