-- ==== Sys2Proof/Laws/Bytes.lean ====
section
/-! SUPPORT. Byte order, buffer reads and writes, and the header record: what each can do, said once. -/

namespace Sys2Proof.Machine

/-! ### Slices -/

theorem length_slice (s : List Byte) (a b : Nat) : (slice s a b).length = min (b - a) (s.length - a) := by
  simp [slice]

theorem slice_zero (s : List Byte) (b : Nat) : slice s 0 b = s.take b := by simp [slice]

theorem slice_append_length (s t u : List Byte) :
    slice (s ++ (t ++ u)) s.length (s.length + t.length) = t := by
  simp [slice]

theorem slice_append_left (s t : List Byte) (a b : Nat) (h : b ≤ s.length) :
    slice (s ++ t) a b = slice s a b := by
  by_cases hab : a ≤ b
  · simp only [slice]
    rw [List.drop_append_of_le_length (by omega), List.take_append_of_le_length (by simp; omega)]
  · simp [slice, Nat.sub_eq_zero_of_le (by omega : b ≤ a)]

theorem getD_slice (s : List Byte) (a b k : Nat) (h : k < b - a) :
    (slice s a b).getD k 0#8 = s.getD (a + k) 0#8 := by
  simp [slice, List.getD_eq_getElem?_getD, h, List.getElem?_drop]

/-! ### Little-endian numbers -/

@[simp] theorem length_leBytes (n v : Nat) : (leBytes n v).length = n := by
  induction n generalizing v with
  | zero => rfl
  | succ n ih => simp [leBytes, ih]

theorem leBytes_one (v : Nat) : leBytes 1 v = [BitVec.ofNat 8 v] := rfl

theorem leNat_lt (bs : List Byte) : leNat bs < 256 ^ bs.length := by
  induction bs with
  | nil => simp [leNat]
  | cons b bs ih =>
    have := b.isLt
    simp only [leNat, List.length_cons, Nat.pow_succ]
    omega

theorem leNat_leBytes (n v : Nat) : leNat (leBytes n v) = v % 256 ^ n := by
  induction n generalizing v with
  | zero => simp [leBytes, leNat, Nat.mod_one]
  | succ n ih =>
    have e : v % 256 ^ (n + 1) = v % 256 + 256 * (v / 256 % 256 ^ n) := by rw [Nat.pow_succ', Nat.mod_mul]
    simp only [leBytes, leNat, ih, BitVec.toNat_ofNat, e]

theorem leBytes_leNat (bs : List Byte) : leBytes bs.length (leNat bs) = bs := by
  induction bs with
  | nil => rfl
  | cons b bs ih =>
    have hb := b.isLt
    have hq : (b.toNat + 256 * leNat bs) / 256 = leNat bs := by omega
    have hm : BitVec.ofNat 8 (b.toNat + 256 * leNat bs) = b := by
      apply BitVec.eq_of_toNat_eq
      simp only [BitVec.toNat_ofNat]
      omega
    simp only [leNat, List.length_cons, leBytes, hq, hm, ih]

/-- Byte `k` of a number's little-endian bytes. -/
theorem getD_leBytes (n v k : Nat) (h : k < n) :
    (leBytes n v).getD k 0#8 = BitVec.ofNat 8 (v / 256 ^ k) := by
  induction n generalizing v k with
  | zero => omega
  | succ n ih =>
    cases k with
    | zero => simp [leBytes]
    | succ k =>
      have := ih (v / 256) k (by omega)
      rw [leBytes, List.getD_cons_succ, this, Nat.div_div_eq_div_mul, Nat.pow_succ']

/-! ### Reads and writes -/

theorem memRead_one (raw : List Byte) (k : Nat) : memRead raw k 1 = (raw.getD k 0#8).toNat := by
  have : slice raw k (k + 1) = (raw[k]?).toList := by
    simp only [slice, Nat.add_sub_cancel_left]
    rw [List.take_one, List.head?_drop]
  rw [memRead, this, List.getD_eq_getElem?_getD]
  cases raw[k]? <;> simp [leNat]

theorem memRead_lt (raw : List Byte) (addr n : Nat) : memRead raw addr n < 256 ^ n := by
  refine lt_of_lt_of_le (leNat_lt _) (Nat.pow_le_pow_right (by omega) ?_)
  simp [length_slice]

/-- A read sees the buffer's bytes at its own offsets and no other. -/
theorem memRead_congr (raw raw' : List Byte) (addr n : Nat) (hl : addr + n ≤ raw.length)
    (hl' : addr + n ≤ raw'.length) (h : ∀ k, k < n → raw.getD (addr + k) 0#8 = raw'.getD (addr + k) 0#8) :
    memRead raw addr n = memRead raw' addr n := by
  have : slice raw addr (addr + n) = slice raw' addr (addr + n) := by
    apply List.ext_getElem
    · simp [length_slice]; omega
    · intro k h1 h2
      simp only [length_slice] at h1
      have := h k (by omega)
      simp only [slice, List.getElem_take, List.getElem_drop]
      simpa [List.getD_eq_getElem?_getD, List.getElem?_eq_getElem (by omega : addr + k < raw.length),
        List.getElem?_eq_getElem (by omega : addr + k < raw'.length)] using this
  rw [memRead, memRead, this]

/-- Reading where a number's bytes stand gives the number. -/
theorem memRead_append_leBytes (s t : List Byte) (n v : Nat) :
    memRead (s ++ (leBytes n v ++ t)) s.length n = v % 256 ^ n := by
  have := slice_append_length s (leBytes n v) t
  rw [length_leBytes] at this
  rw [memRead, this, leNat_leBytes]

theorem memWrite_at_end (out : List Byte) (n v : Nat) : memWrite out out.length n v = out ++ leBytes n v := by
  simp [memWrite]

theorem memWriteRun_at_end (out bs : List Byte) : memWriteRun out out.length bs = out ++ bs := by
  induction bs generalizing out with
  | nil => simp [memWriteRun]
  | cons b bs ih =>
    have h := ih (out ++ [b])
    rw [List.length_append, List.length_singleton] at h
    rw [memWriteRun, memWrite_at_end, leBytes_one, BitVec.ofNat_toNat, BitVec.setWidth_eq, h]
    simp

/-- What a write leaves at each offset of the buffer. -/
theorem getD_memWrite (out : List Byte) (addr n v k : Nat) (h : addr ≤ out.length) :
    (memWrite out addr n v).getD k 0#8 =
      if addr ≤ k ∧ k < addr + n then BitVec.ofNat 8 (v / 256 ^ (k - addr)) else out.getD k 0#8 := by
  have hta : (out.take addr).length = addr := by simp [h]
  by_cases h1 : k < addr
  · rw [if_neg (by omega), memWrite, List.append_assoc, List.getD_append _ _ _ _ (by omega)]
    simp [List.getD_eq_getElem?_getD, h1]
  · by_cases h2 : k < addr + n
    · rw [if_pos ⟨by omega, h2⟩, memWrite, List.append_assoc, List.getD_append_right _ _ _ _ (by omega), hta,
        List.getD_append _ _ _ _ (by simp; omega), getD_leBytes _ _ _ (by omega)]
    · rw [if_neg (by omega), memWrite, List.getD_append_right _ _ _ _ (by simp [hta]; omega)]
      simp only [List.length_append, hta, length_leBytes, List.getD_eq_getElem?_getD, List.getElem?_drop]
      congr 2
      omega

theorem length_memWrite (out : List Byte) (addr n v : Nat) (h : addr ≤ out.length) :
    (memWrite out addr n v).length = max out.length (addr + n) := by
  simp [memWrite]
  omega

/-! ### The header record -/

/-- The bytes of a header, in offset order (R51). -/
theorem writeHeader_eq (h : RawFrameHeader) :
    writeHeader h = leBytes 8 h.timestamp.toNat ++ (leBytes 4 h.identifier.toNat ++
      ([h.frameType, h.flags, h.info, h.payloadLengthLow] ++ h.basePayload.toList)) := by
  have e8 : memWrite [] 0 8 h.timestamp.toNat = leBytes 8 h.timestamp.toNat := memWrite_at_end [] _ _
  have step (out : List Byte) (a n v : Nat) (ha : a = out.length) : memWrite out a n v = out ++ leBytes n v := by
    rw [ha, memWrite_at_end]
  simp only [writeHeader, e8]
  rw [step _ 8 4 _ (by simp), step _ 12 1 _ (by simp), step _ 13 1 _ (by simp), step _ 14 1 _ (by simp),
    step _ 15 1 _ (by simp)]
  have run (out : List Byte) (bs : List Byte) (ho : 16 = out.length) : memWriteRun out 16 bs = out ++ bs := by
    rw [ho, memWriteRun_at_end]
  rw [run _ _ (by simp)]
  simp [leBytes_one]

@[simp] theorem length_writeHeader (h : RawFrameHeader) : (writeHeader h).length = 24 := by
  simp [writeHeader_eq]

theorem exists_cons_of_lt_length {n : Nat} {raw : List Byte} (h : n + 1 ≤ raw.length) :
    ∃ b bs, raw = b :: bs ∧ n ≤ bs.length := by
  cases raw with
  | nil => simp at h
  | cons b bs => exact ⟨b, bs, rfl, Nat.le_of_succ_le_succ h⟩

/-- A buffer of at least 24 bytes, its first 24 named. -/
theorem exists_header_bytes {raw : List Byte} (h : 24 ≤ raw.length) :
    ∃ b0 b1 b2 b3 b4 b5 b6 b7 b8 b9 b10 b11 b12 b13 b14 b15 b16 b17 b18 b19 b20 b21 b22 b23 rest,
      raw = [b0, b1, b2, b3, b4, b5, b6, b7, b8, b9, b10, b11, b12, b13, b14, b15, b16, b17, b18, b19, b20, b21, b22,
        b23] ++ rest := by
  obtain ⟨b0, r0, rfl, h0⟩ := exists_cons_of_lt_length h
  obtain ⟨b1, r1, rfl, h1⟩ := exists_cons_of_lt_length h0
  obtain ⟨b2, r2, rfl, h2⟩ := exists_cons_of_lt_length h1
  obtain ⟨b3, r3, rfl, h3⟩ := exists_cons_of_lt_length h2
  obtain ⟨b4, r4, rfl, h4⟩ := exists_cons_of_lt_length h3
  obtain ⟨b5, r5, rfl, h5⟩ := exists_cons_of_lt_length h4
  obtain ⟨b6, r6, rfl, h6⟩ := exists_cons_of_lt_length h5
  obtain ⟨b7, r7, rfl, h7⟩ := exists_cons_of_lt_length h6
  obtain ⟨b8, r8, rfl, h8⟩ := exists_cons_of_lt_length h7
  obtain ⟨b9, r9, rfl, h9⟩ := exists_cons_of_lt_length h8
  obtain ⟨b10, r10, rfl, h10⟩ := exists_cons_of_lt_length h9
  obtain ⟨b11, r11, rfl, h11⟩ := exists_cons_of_lt_length h10
  obtain ⟨b12, r12, rfl, h12⟩ := exists_cons_of_lt_length h11
  obtain ⟨b13, r13, rfl, h13⟩ := exists_cons_of_lt_length h12
  obtain ⟨b14, r14, rfl, h14⟩ := exists_cons_of_lt_length h13
  obtain ⟨b15, r15, rfl, h15⟩ := exists_cons_of_lt_length h14
  obtain ⟨b16, r16, rfl, h16⟩ := exists_cons_of_lt_length h15
  obtain ⟨b17, r17, rfl, h17⟩ := exists_cons_of_lt_length h16
  obtain ⟨b18, r18, rfl, h18⟩ := exists_cons_of_lt_length h17
  obtain ⟨b19, r19, rfl, h19⟩ := exists_cons_of_lt_length h18
  obtain ⟨b20, r20, rfl, h20⟩ := exists_cons_of_lt_length h19
  obtain ⟨b21, r21, rfl, h21⟩ := exists_cons_of_lt_length h20
  obtain ⟨b22, r22, rfl, h22⟩ := exists_cons_of_lt_length h21
  obtain ⟨b23, r23, rfl, h23⟩ := exists_cons_of_lt_length h22
  exact ⟨b0, b1, b2, b3, b4, b5, b6, b7, b8, b9, b10, b11, b12, b13, b14, b15, b16, b17, b18, b19, b20, b21, b22, b23,
    r23, rfl⟩

@[simp] theorem readHeader_frameType (raw : List Byte) : (readHeader raw).frameType = raw.getD 12 0#8 := by
  simp [readHeader, memRead_one]

@[simp] theorem readHeader_flags (raw : List Byte) : (readHeader raw).flags = raw.getD 13 0#8 := by
  simp [readHeader, memRead_one]

@[simp] theorem readHeader_info (raw : List Byte) : (readHeader raw).info = raw.getD 14 0#8 := by
  simp [readHeader, memRead_one]

@[simp] theorem readHeader_payloadLengthLow (raw : List Byte) :
    (readHeader raw).payloadLengthLow = raw.getD 15 0#8 := by
  simp [readHeader, memRead_one]

theorem readHeader_timestamp (raw : List Byte) :
    (readHeader raw).timestamp = BitVec.ofNat 64 (memRead raw 0 8) := rfl

theorem readHeader_identifier (raw : List Byte) :
    (readHeader raw).identifier = BitVec.ofNat 32 (memRead raw 8 4) := rfl

theorem readHeader_basePayload (raw : List Byte) :
    (readHeader raw).basePayload = Vector.ofFn fun i => raw.getD (16 + i.val) 0#8 := by
  simp [readHeader, memRead_one]

theorem toList_readHeader_basePayload (raw : List Byte) (h : 24 ≤ raw.length) :
    (readHeader raw).basePayload.toList = slice raw 16 24 := by
  obtain ⟨b0, b1, b2, b3, b4, b5, b6, b7, b8, b9, b10, b11, b12, b13, b14, b15, b16, b17, b18, b19, b20, b21, b22,
    b23, rest, rfl⟩ := exists_header_bytes h
  rw [readHeader_basePayload]
  simp [slice, Vector.toList_ofFn, List.ofFn_succ]

/-- Reading a header back from its bytes, whatever follows them. -/
theorem readHeader_writeHeader (h : RawFrameHeader) (rest : List Byte) :
    readHeader (writeHeader h ++ rest) = h := by
  have e := writeHeader_eq h
  have ht : memRead (writeHeader h ++ rest) 0 8 = h.timestamp.toNat := by
    have := memRead_append_leBytes [] (leBytes 4 h.identifier.toNat ++
      ([h.frameType, h.flags, h.info, h.payloadLengthLow] ++ h.basePayload.toList) ++ rest) 8 h.timestamp.toNat
    rw [e]
    simp only [List.nil_append, List.length_nil, List.append_assoc] at this ⊢
    rw [this]
    exact Nat.mod_eq_of_lt h.timestamp.isLt
  have hi : memRead (writeHeader h ++ rest) 8 4 = h.identifier.toNat := by
    have := memRead_append_leBytes (leBytes 8 h.timestamp.toNat)
      ([h.frameType, h.flags, h.info, h.payloadLengthLow] ++ h.basePayload.toList ++ rest) 4 h.identifier.toNat
    rw [e]
    simp only [length_leBytes, List.append_assoc] at this ⊢
    rw [this]
    exact Nat.mod_eq_of_lt h.identifier.isLt
  have hb (k : Nat) : (writeHeader h ++ rest).getD (12 + k) 0#8 =
      ([h.frameType, h.flags, h.info, h.payloadLengthLow] ++ h.basePayload.toList ++ rest).getD k 0#8 := by
    rw [e, List.append_assoc, List.append_assoc, List.getD_append_right _ _ _ _ (by simp; omega),
      List.getD_append_right _ _ _ _ (by simp; omega)]
    simp only [length_leBytes]
    congr 1
    omega
  have b0 := hb 0
  have b1 := hb 1
  have b2 := hb 2
  have b3 := hb 3
  have b4 (i : Nat) := hb (4 + i)
  obtain ⟨⟨ts, id, fl, inf, low, base⟩, ty⟩ := h
  simp only [readHeader, memRead_one, ht, hi, RawFrameHeader.mk.injEq, HeaderFields.mk.injEq, BitVec.ofNat_toNat,
    BitVec.setWidth_eq]
  refine ⟨⟨trivial, trivial, b1, b2, b3, ?_⟩, b0⟩
  ext i hi8
  have := b4 i
  rw [show 12 + (4 + i) = 16 + i by omega] at this
  simp only [Vector.getElem_ofFn, this]
  simp [List.getD_eq_getElem?_getD, List.getElem?_append, hi8, Nat.add_comm 4 i]

/-- Writing the header read from a buffer gives the buffer's first 24 bytes. -/
theorem writeHeader_readHeader (raw : List Byte) (h : 24 ≤ raw.length) :
    writeHeader (readHeader raw) = raw.take 24 := by
  have hbase := toList_readHeader_basePayload raw h
  have l8 : memRead raw 0 8 < 2 ^ 64 := memRead_lt raw 0 8
  have l4 : memRead raw 8 4 < 2 ^ 32 := memRead_lt raw 8 4
  rw [writeHeader_eq, hbase, readHeader_timestamp, readHeader_identifier, readHeader_frameType, readHeader_flags,
    readHeader_info, readHeader_payloadLengthLow, BitVec.toNat_ofNat, BitVec.toNat_ofNat,
    Nat.mod_eq_of_lt l8, Nat.mod_eq_of_lt l4]
  obtain ⟨b0, b1, b2, b3, b4, b5, b6, b7, b8, b9, b10, b11, b12, b13, b14, b15, b16, b17, b18, b19, b20, b21, b22,
    b23, rest, rfl⟩ := exists_header_bytes h
  have h8 := leBytes_leNat [b0, b1, b2, b3, b4, b5, b6, b7]
  have h4 := leBytes_leNat [b8, b9, b10, b11]
  simp only [List.length_cons, List.length_nil] at h8 h4
  simp only [memRead, slice, List.cons_append, List.nil_append, List.drop_succ_cons, List.drop_zero, List.take_succ_cons,
    List.take_zero, List.getD_cons_succ, List.getD_cons_zero, Nat.reduceAdd, Nat.reduceSub] at h8 h4 ⊢
  rw [h8, h4]
  rfl

end Sys2Proof.Machine
end

