-- ==== Sys2Proof/Laws/Layout.lean ====
section
/-! SUPPORT. The payload boundary calculator and the frame-type map as plain arithmetic. -/

namespace Sys2Proof.Machine

theorem ceil8_eq (n : Nat) : ceil8 n = 8 * ((n + 7) / 8) := by
  simp [ceil8, Nat.shiftRight_eq_div_pow]

theorem unitLen_eq (n : Nat) : unitLen n = n - 8 := by
  unfold unitLen; split <;> omega

theorem baseLen_eq (n : Nat) : baseLen n = min n 8 := by
  rw [baseLen, unitLen_eq]; omega

theorem trail_eq (n : Nat) : trail n = 8 * ((n - 1) / 8) := by
  unfold trail total; rw [ceil8_eq]; split <;> omega

theorem total_eq (n : Nat) : total n = trail n + 8 := by
  rw [trail_eq]; unfold total; rw [ceil8_eq]; split <;> omega

/-- The payload unit holds its real bytes and less than 8 more (R95). -/
theorem trail_bounds (n : Nat) : n - 8 ≤ trail n ∧ trail n ≤ n - 8 + 7 ∧ trail n % 8 = 0 := by
  rw [trail_eq]; omega

theorem trail_eq_zero (n : Nat) : trail n = 0 ↔ n ≤ 8 := by
  rw [trail_eq]; omega

theorem trail_le (n m : Nat) (h : n ≤ m) : trail n ≤ trail m := by
  rw [trail_eq, trail_eq]; omega

/-! ### The payload length -/

theorem extendedLength_toNat (info low : Byte) :
    (extendedLength info low).toNat = info.toNat % 8 * 256 + low.toNat := by
  have hi := info.isLt
  have hl : low.toNat < 2 ^ 8 := low.isLt
  have hm : info.toNat &&& 7 = info.toNat % 8 := Nat.and_two_pow_sub_one_eq_mod info.toNat 3
  have hs : (info.toNat % 8) <<< 8 % 2048 = (info.toNat % 8) <<< 8 := by
    rw [Nat.shiftLeft_eq]; omega
  simp only [extendedLength, Config.infoLenMask, Config.infoLenShift, BitVec.toNat_or, BitVec.toNat_shiftLeft,
    BitVec.toNat_and, BitVec.toNat_setWidth, BitVec.toNat_ofNat]
  rw [Nat.mod_eq_of_lt (by omega : info.toNat < 2 ^ 11), Nat.mod_eq_of_lt (by omega : low.toNat < 2 ^ 11)]
  simp only [Nat.reducePow, Nat.reduceMod, hm, hs]
  rw [← Nat.shiftLeft_add_eq_or_of_lt hl, Nat.shiftLeft_eq]

theorem payloadLength_toNat (p : Params) (t info low : Byte) :
    (payloadLength p t info low).toNat =
      if classify p t = .j1939Data then info.toNat % 8 * 256 + low.toNat else low.toNat := by
  unfold payloadLength
  split
  · exact extendedLength_toNat info low
  · have := low.isLt
    rw [BitVec.toNat_setWidth]; omega

theorem payloadLength_le (p : Params) (t info low : Byte) : (payloadLength p t info low).toNat ≤ 2047 := by
  have := (payloadLength p t info low).isLt
  omega

/-- With a legal strap the default order of the map does not matter: the J1939 row is exactly FT_J1939_DATA (R61). -/
theorem classify_eq_j1939Data (p : Params) (h : p.Legal) (t : Byte) : classify p t = .j1939Data ↔ t = p.ftJ1939Data := by
  have h2 := h.1
  unfold classify Config.ftCanData Config.ftCanRemote Config.ftCanBusError
  constructor
  · intro e
    split at e <;> try contradiction
    split at e <;> try contradiction
    split at e <;> try contradiction
    split at e
    · assumption
    · contradiction
  · rintro rfl
    have hn (k : Byte) (hk : k.toNat ≤ 2) : p.ftJ1939Data ≠ k := by
      rintro e
      rw [e] at h2
      omega
    rw [if_neg (hn _ (by decide)), if_neg (hn _ (by decide)), if_neg (hn _ (by decide)), if_pos rfl]

theorem payloadLength_toNat_of_legal (p : Params) (h : p.Legal) (t info low : Byte) :
    (payloadLength p t info low).toNat =
      if t = p.ftJ1939Data then info.toNat % 8 * 256 + low.toNat else low.toNat := by
  rw [payloadLength_toNat]
  simp only [classify_eq_j1939Data p h]

/-- The configured parameters meet R8's constraints, whatever the opaque constants are. -/
theorem params_legal : Config.params.Legal := by
  have := Config.ftJ1939Index.isLt
  refine ⟨?_, ?_⟩
  · simp only [Config.params, BitVec.toNat_ofNat]; omega
  · simp [Config.params]

end Sys2Proof.Machine
end

