-- ==== Sys2Proof/Laws/Decode.lean ====
section
/-! SUPPORT. The select codes one by one, the frame-type map value by value, and decoding a written header. -/

namespace Sys2Proof

open Machine

/-- A select code is one of sixteen (R70). -/
theorem selectCode_cases (op : BitVec 4) :
    op = 0x0#4 ∨ op = 0x1#4 ∨ op = 0x2#4 ∨ op = 0x3#4 ∨ op = 0x4#4 ∨ op = 0x5#4 ∨ op = 0x6#4 ∨ op = 0x7#4 ∨
    op = 0x8#4 ∨ op = 0x9#4 ∨ op = 0xA#4 ∨ op = 0xB#4 ∨ op = 0xC#4 ∨ op = 0xD#4 ∨ op = 0xE#4 ∨ op = 0xF#4 := by
  revert op; decide

theorem classify_zero (p : Params) : classify p 0x00#8 = .canData := rfl
theorem classify_one (p : Params) : classify p 0x01#8 = .canRemote := rfl
theorem classify_two (p : Params) : classify p 0x02#8 = .canBusError := rfl

theorem classify_ftJ1939Data {p : Params} (h : p.Legal) : classify p p.ftJ1939Data = .j1939Data :=
  (classify_eq_j1939Data p h _).2 rfl

theorem classify_other {p : Params} {t : Byte} (h : 2 < t.toNat) (hn : t ≠ p.ftJ1939Data) : classify p t = .other := by
  have hk (k : Byte) (hk : k.toNat ≤ 2) : t ≠ k := by rintro rfl; omega
  unfold classify
  rw [if_neg (hk _ (by decide)), if_neg (hk _ (by decide)), if_neg (hk _ (by decide)), if_neg hn]

@[simp] theorem decodeRequest_mk (op : BitVec 4) (x : Operands) : decodeRequest ⟨op, x⟩ = decodeOp op x := rfl

/-- Which byte each row of the map stands for. -/
theorem classify_cases (p : Params) (t : Byte) :
    (t = 0x00#8 ∧ classify p t = .canData) ∨ (t = 0x01#8 ∧ classify p t = .canRemote) ∨
    (t = 0x02#8 ∧ classify p t = .canBusError) ∨
    (t ≠ 0x00#8 ∧ t ≠ 0x01#8 ∧ t ≠ 0x02#8 ∧ t = p.ftJ1939Data ∧ classify p t = .j1939Data) ∨
    (t ≠ 0x00#8 ∧ t ≠ 0x01#8 ∧ t ≠ 0x02#8 ∧ t ≠ p.ftJ1939Data ∧ classify p t = .other) := by
  unfold classify Config.ftCanData Config.ftCanRemote Config.ftCanBusError
  by_cases h0 : t = 0x00#8
  · simp [h0]
  by_cases h1 : t = 0x01#8
  · simp [h1]
  by_cases h2 : t = 0x02#8
  · simp [h2]
  by_cases h3 : t = p.ftJ1939Data
  · rw [if_neg h0, if_neg h1, if_neg h2, if_pos h3]
    exact .inr (.inr (.inr (.inl ⟨h0, h1, h2, h3, rfl⟩)))
  · simp [h0, h1, h2, h3]

/-- Decoding a buffer that has a header. -/
theorem decodeWire_of_le {p : Params} {raw : List Byte} (h : 24 ≤ raw.length) :
    decodeWire p raw = .ok (rowOf p (readHeader raw).frameType (readHeader raw).toHeaderFields (raw.drop 24)) := by
  unfold decodeWire
  rw [if_neg (by omega)]

theorem decodeWire_of_lt {p : Params} {raw : List Byte} (h : raw.length < 24) :
    decodeWire p raw = .error (.headerTruncated raw.length) := by
  unfold decodeWire; rw [if_pos h]

/-- Decoding the header an encoder wrote. -/
theorem decodeWire_writeHeader (p : Params) (t : Byte) (h : HeaderFields) (rest : List Byte) :
    decodeWire p (writeHeader { h with frameType := t } ++ rest) = .ok (rowOf p t h rest) := by
  rw [decodeWire_of_le (by simp), readHeader_writeHeader,
    List.drop_append_of_le_length (by simp), List.drop_of_length_le (by simp), List.nil_append]

end Sys2Proof
end

