-- ==== Sys2Proof/Laws/IdCodec.lean ====
section
/-! SUPPORT. The identifier codec bit by bit. -/

namespace Sys2Proof.Machine

theorem getLsbD_extMask (k : Nat) : (0x1FFFFFFF#32).getLsbD k = decide (k < 29) := by
  by_cases h : k < 32
  · revert k; decide
  · rw [BitVec.getLsbD_of_ge _ _ (by omega)]; simp; omega

theorem getLsbD_stdMask (k : Nat) : (0x000007FF#32).getLsbD k = decide (k < 11) := by
  by_cases h : k < 32
  · revert k; decide
  · rw [BitVec.getLsbD_of_ge _ _ (by omega)]; simp; omega

theorem getLsbD_extFlag (k : Nat) : (0x20000000#32).getLsbD k = decide (k = 29) := by
  by_cases h : k < 32
  · revert k; decide
  · rw [BitVec.getLsbD_of_ge _ _ (by omega)]; simp; omega

theorem getLsbD_reservedMask (k : Nat) : (0xC0000000#32).getLsbD k = decide (k = 30 ∨ k = 31) := by
  by_cases h : k < 32
  · revert k; decide
  · rw [BitVec.getLsbD_of_ge _ _ (by omega)]; simp; omega

theorem getLsbD_excessMask (k : Nat) : (0x1FFFF800#32).getLsbD k = decide (11 ≤ k ∧ k < 29) := by
  by_cases h : k < 32
  · revert k; decide
  · rw [BitVec.getLsbD_of_ge _ _ (by omega)]; simp; omega

/-- A word masked to nothing has no bit of the mask set. -/
theorem and_eq_zero_iff (w m : BitVec 32) : w &&& m = 0#32 ↔ ∀ k, k < 32 → w.getLsbD k = true → m.getLsbD k = false := by
  constructor
  · intro h k _ hk
    have := congrArg (·.getLsbD k) h
    simpa [hk] using this
  · intro h
    apply BitVec.eq_of_getLsbD_eq
    intro k hk
    have := h k hk
    simp only [BitVec.getLsbD_and, BitVec.getLsbD_zero]
    cases hw : w.getLsbD k <;> simp_all

theorem flag_iff (w : BitVec 32) : w &&& 0x20000000#32 = 0#32 ↔ w.getLsbD 29 = false := by
  rw [and_eq_zero_iff]
  constructor
  · intro h
    have := h 29 (by omega)
    rw [getLsbD_extFlag] at this
    cases hw : w.getLsbD 29 <;> simp_all
  · intro h k _ hk
    rw [getLsbD_extFlag]
    by_cases e : k = 29
    · subst e; simp_all
    · simp [e]

theorem rawIsExtended_eq (w : BitVec 32) : rawIsExtended w = w.getLsbD 29 := by
  have := flag_iff w
  unfold rawIsExtended Config.extFlag
  cases h : w.getLsbD 29 <;> simp_all

/-- How many identifier bits the flag allows. -/
def idBits (ext : Bool) : Nat := if ext then 29 else 11

@[simp] theorem idBits_true : idBits true = 29 := rfl
@[simp] theorem idBits_false : idBits false = 11 := rfl

theorem idBits_le (ext : Bool) : idBits ext ≤ 29 := by cases ext <;> simp

theorem getLsbD_idMask (ext : Bool) (k : Nat) : (idMask ext).getLsbD k = decide (k < idBits ext) := by
  cases ext
  · exact getLsbD_stdMask k
  · exact getLsbD_extMask k

theorem getLsbD_idFlag (ext : Bool) (k : Nat) : (idFlag ext).getLsbD k = (ext && decide (k = 29)) := by
  cases ext
  · simp [idFlag]
  · exact (getLsbD_extFlag k).trans (by simp)

theorem getLsbD_rawIdentifier (w : BitVec 32) (k : Nat) :
    (rawIdentifier w).getLsbD k = (w.getLsbD k && decide (k < idBits (w.getLsbD 29))) := by
  rw [rawIdentifier, BitVec.getLsbD_and, getLsbD_idMask, rawIsExtended_eq]

theorem getLsbD_rawDropped (w : BitVec 32) (k : Nat) (hk : k < 32) :
    (rawDropped w).getLsbD k = (w.getLsbD k && !(decide (k < idBits (w.getLsbD 29)) || decide (k = 29))) := by
  rw [rawDropped, BitVec.getLsbD_and, BitVec.getLsbD_not, BitVec.getLsbD_or, getLsbD_idMask, rawIsExtended_eq,
    Config.extFlag, getLsbD_extFlag]
  simp [hk]

/-- The mask check, as a bound on the bits. -/
theorem identifierFits_iff (id : BitVec 32) (ext : Bool) :
    IdentifierFits id ext ↔ ∀ k, id.getLsbD k = true → k < idBits ext := by
  have hm (k : Nat) (hk : k < 32) : (~~~(if ext then 0x1FFFFFFF#32 else 0x000007FF#32)).getLsbD k =
      !decide (k < idBits ext) := by
    rw [BitVec.getLsbD_not]
    have := getLsbD_idMask ext k
    unfold idMask Config.extMask Config.stdMask at this
    rw [this]; simp [hk]
  unfold IdentifierFits
  rw [and_eq_zero_iff]
  constructor
  · intro h k hk
    have h32 : k < 32 := by
      by_contra hc
      rw [BitVec.getLsbD_of_ge _ _ (by omega)] at hk
      simp at hk
    have := h k h32 hk
    rw [hm k h32] at this
    simpa using this
  · intro h k h32 hk
    rw [hm k h32]
    simpa using h k hk

/-- The mask check, as a bound on the number (R127). -/
theorem identifierFits_iff_lt (id : BitVec 32) (ext : Bool) : IdentifierFits id ext ↔ id.toNat < 2 ^ idBits ext := by
  rw [identifierFits_iff]
  constructor
  · intro h
    apply Nat.lt_pow_two_of_testBit
    intro i hi
    by_contra hc
    have := h i (by simpa [BitVec.testBit_toNat] using hc)
    omega
  · intro h k hk
    by_contra hc
    have := Nat.testBit_lt_two_pow (lt_of_lt_of_le h (Nat.pow_le_pow_right (by omega : 0 < 2) (by omega : idBits ext ≤ k)))
    rw [BitVec.testBit_toNat] at this
    simp_all

/-- Decoding never gives an identifier that encoding would refuse (R80 (d)). -/
theorem rawIdentifier_fits (w : BitVec 32) : IdentifierFits (rawIdentifier w) (rawIsExtended w) := by
  rw [identifierFits_iff, rawIsExtended_eq]
  intro k hk
  rw [getLsbD_rawIdentifier] at hk
  simp_all

/-- ID.ENC inside its domain (R82). -/
theorem idEncode_of_fits {id : BitVec 32} {ext : Bool} (h : IdentifierFits id ext) :
    idEncode id ext = .ok (id ||| idFlag ext) := by
  unfold idEncode
  rw [if_neg]
  simpa [IdentifierFits, idMask, Config.extMask, Config.stdMask] using h

/-- ID.ENC outside its domain (R82). -/
theorem idEncode_of_not_fits {id : BitVec 32} {ext : Bool} (h : ¬IdentifierFits id ext) :
    idEncode id ext = .error (.invalidIdentifier id ext) := by
  unfold idEncode
  rw [if_pos]
  simpa [IdentifierFits, idMask, Config.extMask, Config.stdMask] using h

/-- The three parts of a wire identifier. -/
theorem raw_parts (w : BitVec 32) : w = rawIdentifier w ||| idFlag (rawIsExtended w) ||| rawDropped w := by
  apply BitVec.eq_of_getLsbD_eq
  intro k hk
  rw [BitVec.getLsbD_or, BitVec.getLsbD_or, getLsbD_rawIdentifier, getLsbD_rawDropped w k hk, getLsbD_idFlag,
    rawIsExtended_eq]
  by_cases e : k = 29
  · subst e
    cases w.getLsbD 29 <;> simp
  · cases w.getLsbD k <;> simp [e]

theorem decode_parts_of_fits {id : BitVec 32} {ext : Bool} (h : IdentifierFits id ext) :
    rawIsExtended (id ||| idFlag ext) = ext ∧ rawIdentifier (id ||| idFlag ext) = id ∧
      rawDropped (id ||| idFlag ext) = 0#32 := by
  rw [identifierFits_iff] at h
  have h29 : id.getLsbD 29 = false := by
    by_contra hc
    have := h 29 (by simpa using hc)
    revert this; cases ext <;> simp
  have he : (id ||| idFlag ext).getLsbD 29 = ext := by
    rw [BitVec.getLsbD_or, getLsbD_idFlag, h29]; simp
  refine ⟨by rw [rawIsExtended_eq, he], ?_, ?_⟩
  · apply BitVec.eq_of_getLsbD_eq
    intro k hk
    rw [getLsbD_rawIdentifier, he, BitVec.getLsbD_or, getLsbD_idFlag]
    by_cases e : k = 29
    · subst e; rw [h29]; cases ext <;> simp
    · cases hb : id.getLsbD k
      · simp [e]
      · simpa [e] using h k hb
  · apply BitVec.eq_of_getLsbD_eq
    intro k hk
    rw [getLsbD_rawDropped _ _ hk, he, BitVec.getLsbD_or, getLsbD_idFlag]
    by_cases e : k = 29
    · subst e; simp
    · cases hb : id.getLsbD k
      · simp [e]
      · have := h k hb
        simp [e, this]

/-- An encoded identifier is canonical (R82 (e)). -/
theorem encoded_canonical {id : BitVec 32} {ext : Bool} (h : IdentifierFits id ext) :
    CanonicalWireId (id ||| idFlag ext) := by
  rw [identifierFits_iff] at h
  constructor
  · rw [and_eq_zero_iff]
    intro k _ hk
    rw [getLsbD_reservedMask]
    rw [BitVec.getLsbD_or, getLsbD_idFlag] at hk
    cases hb : id.getLsbD k
    · simp [hb] at hk; simp; omega
    · have := h k hb
      have := idBits_le ext
      simp; omega
  · intro hf
    rw [flag_iff, BitVec.getLsbD_or, getLsbD_idFlag] at hf
    have he : ext = false := by cases ext <;> simp_all
    subst he
    rw [and_eq_zero_iff]
    intro k _ hk
    have := h k (by simpa [idFlag] using hk)
    rw [getLsbD_excessMask]
    simp at this ⊢; omega

/-- Decoding drops nothing of a canonical wire identifier (R66, R84). -/
theorem dropped_of_canonical {w : BitVec 32} (h : CanonicalWireId w) : rawDropped w = 0#32 := by
  obtain ⟨h1, h2⟩ := h
  rw [and_eq_zero_iff] at h1
  rw [flag_iff, and_eq_zero_iff] at h2
  apply BitVec.eq_of_getLsbD_eq
  intro k hk
  rw [getLsbD_rawDropped w k hk]
  cases hb : w.getLsbD k
  · simp
  · have a := h1 k hk hb
    rw [getLsbD_reservedMask, decide_eq_false_iff_not] at a
    have : k < idBits (w.getLsbD 29) ∨ k = 29 := by
      cases he : w.getLsbD 29
      · have b := h2 he k hk hb
        rw [getLsbD_excessMask, decide_eq_false_iff_not] at b
        rw [idBits_false]; omega
      · rw [idBits_true]; omega
    rcases this with e | e
    · rw [decide_eq_true e]; simp
    · rw [decide_eq_true e, Bool.or_true]; simp

end Sys2Proof.Machine
end

