-- ==== Sys2Proof/Laws/Payload.lean ====
section
/-! SUPPORT. The packer: what PL.PACK and PL.UNPACK give, said once over byte lists. -/

namespace Sys2Proof.Machine

theorem getD_append_zeros (s : List Byte) (m k : Nat) : (s ++ zeros m).getD k 0#8 = s.getD k 0#8 := by
  by_cases h : k < s.length
  · rw [List.getD_append _ _ _ _ h]
  · rw [List.getD_append_right _ _ _ _ (by omega), List.getD_eq_default s 0#8 (by omega)]
    simp only [List.getD_eq_getElem?_getD, List.getElem?_replicate]
    split <;> rfl

/-- Byte lists of one length that agree at every offset are equal. -/
theorem eq_of_getD {s t : List Byte} (hl : s.length = t.length)
    (h : ∀ k, k < s.length → s.getD k 0#8 = t.getD k 0#8) : s = t := by
  apply List.ext_getElem hl
  intro k h1 h2
  have := h k h1
  rwa [List.getD_eq_getElem _ _ h1, List.getD_eq_getElem _ _ h2] at this

theorem toList_packBase (payload : List Byte) :
    (packBase payload).toList = payload.take 8 ++ zeros (8 - payload.length) := by
  apply eq_of_getD
  · simp; omega
  · intro k hk
    simp only [Vector.length_toList] at hk
    rw [getD_append_zeros, List.getD_eq_getElem _ _ (by simpa using hk)]
    simp [packBase, List.getD_eq_getElem?_getD, hk]

theorem packUnit_eq (payload : List Byte) :
    packUnit payload = payload.drop 8 ++ zeros (trail payload.length - (payload.length - 8)) := by
  unfold packUnit
  dsimp only
  split
  · rw [slice, List.take_of_length_le (by simp), unitLen_eq]
  · rename_i h
    have : trail payload.length = 0 := (trail_eq_zero _).2 (by omega)
    rw [List.drop_eq_nil_of_le (by omega), this]
    simp

theorem length_packUnit (payload : List Byte) : (packUnit payload).length = trail payload.length := by
  have := trail_bounds payload.length
  rw [packUnit_eq]; simp; omega

/-- The packed base payload and unit, one after the other: the payload and its padding (R98). -/
theorem pack_append (payload : List Byte) :
    (packBase payload).toList ++ packUnit payload =
      payload ++ zeros (8 + trail payload.length - payload.length) := by
  have hb := trail_bounds payload.length
  apply eq_of_getD
  · simp [length_packUnit]; omega
  · intro k hk
    rw [getD_append_zeros, toList_packBase, packUnit_eq]
    by_cases h : k < 8
    · rw [List.getD_append _ _ _ _ (by simp; omega), getD_append_zeros]
      simp [List.getD_eq_getElem?_getD, h]
    · rw [List.getD_append_right _ _ _ _ (by simp; omega), getD_append_zeros]
      simp only [List.getD_eq_getElem?_getD, List.getElem?_drop, List.length_append, List.length_take,
        List.length_replicate]
      congr 2
      omega

/-- PL.UNPACK with its real unit bytes there: the first `n` bytes of base payload and unit (R100, R116). -/
theorem unpack_of_le {base : BasePayload} {n : Nat} {unit : List Byte} (h : n - 8 ≤ unit.length) :
    unpack base n unit = .ok ((base.toList ++ unit).take n) := by
  unfold unpack
  rw [unitLen_eq, if_neg (by omega), slice_zero, slice_zero, baseLen_eq, List.take_append]
  simp only [Vector.length_toList]
  rw [List.take_eq_take_iff.2 (by simp : min (min n 8) base.toList.length = min n base.toList.length)]

/-- PL.UNPACK without them (R100, decision D8). -/
theorem unpack_of_lt {base : BasePayload} {n : Nat} {unit : List Byte} (h : unit.length < n - 8) :
    unpack base n unit = .error (.truncatedFrame .payload unit.length (n - 8)) := by
  unfold unpack
  rw [unitLen_eq, if_pos h]

theorem length_unpacked {base : BasePayload} {n : Nat} {unit : List Byte} (h : n - 8 ≤ unit.length) :
    ((base.toList ++ unit).take n).length = n := by
  simp; omega

end Sys2Proof.Machine
end

