-- ==== Sys2Proof/Laws/Frame.lean ====
section
/-! SUPPORT. What the decoder and the encoder give in each of their cases, said once. -/

namespace Sys2Proof.Machine

/-! ### Decoder -/

/-- The frame a header and a payload make (R110 steps 7 to 9). -/
def frameOf (h : RawFrameHeader) (payload : List Byte) : LogicalFrame where
  timestamp := h.timestamp
  identifier := rawIdentifier h.identifier
  isExtended := rawIsExtended h.identifier
  isRemoteFrame := isRemoteType h.frameType
  isErrorFrame := isErrorType h.frameType
  payload := payload

/-- The payload length of the frame in a buffer. -/
def frameLength (p : Params) (raw : List Byte) : Nat :=
  (payloadLength p (raw.getD 12 0#8) (raw.getD 14 0#8) (raw.getD 15 0#8)).toNat

theorem frameLength_le (p : Params) (raw : List Byte) : frameLength p raw ≤ 2047 := payloadLength_le _ _ _ _

theorem frameLength_of_legal {p : Params} (h : p.Legal) (raw : List Byte) :
    frameLength p raw = if raw.getD 12 0#8 = p.ftJ1939Data
      then (raw.getD 14 0#8).toNat % 8 * 256 + (raw.getD 15 0#8).toNat else (raw.getD 15 0#8).toNat :=
  payloadLength_toNat_of_legal p h _ _ _

theorem parse_of_no_header {p : Params} {raw : List Byte} (h : raw.length < 24) :
    parse p raw = .error (.truncatedFrame .header raw.length 24) := by
  unfold parse; rw [if_pos h]

theorem parse_of_missing_unit {p : Params} {raw : List Byte} (h : 24 ≤ raw.length)
    (hu : raw.length < 24 + (frameLength p raw - 8)) :
    parse p raw = .error (.truncatedFrame .payload raw.length (24 + (frameLength p raw - 8))) := by
  unfold parse
  rw [if_neg (by omega)]
  simp only [readHeader_frameType, readHeader_info, readHeader_payloadLengthLow, unitLen_eq]
  rw [← frameLength, if_pos hu]

theorem drop_sixteen (raw : List Byte) (h : 24 ≤ raw.length) :
    (readHeader raw).basePayload.toList ++ raw.drop 24 = raw.drop 16 := by
  have e : raw.drop 24 = (raw.drop 16).drop 8 := by rw [List.drop_drop]
  rw [toList_readHeader_basePayload raw h, slice, e, List.take_append_drop]

/-- The payload is the buffer's bytes from offset 16 on (R116). -/
theorem parse_of_present {p : Params} {raw : List Byte} (h : 24 ≤ raw.length)
    (hu : 24 + (frameLength p raw - 8) ≤ raw.length) :
    parse p raw = .ok (frameOf (readHeader raw) ((raw.drop 16).take (frameLength p raw))) := by
  have hp : slice (readHeader raw).basePayload.toList 0 (baseLen (frameLength p raw)) ++
      slice raw 24 (24 + (frameLength p raw - 8)) = (raw.drop 16).take (frameLength p raw) := by
    rw [← drop_sixteen raw h, slice_zero, baseLen_eq, slice, List.take_append, Nat.add_sub_cancel_left]
    simp only [Vector.length_toList]
    rw [List.take_eq_take_iff.2 (by simp : min (min (frameLength p raw) 8) (readHeader raw).basePayload.toList.length =
      min (frameLength p raw) (readHeader raw).basePayload.toList.length)]
  unfold parse
  rw [if_neg (by omega)]
  simp only [readHeader_frameType, readHeader_info, readHeader_payloadLengthLow, unitLen_eq]
  rw [← frameLength, if_neg (by omega), hp, frameOf, readHeader_frameType]

/-- The three cases of FR.PARSE. -/
theorem parse_cases (p : Params) (raw : List Byte) :
    (raw.length < 24 ∧ parse p raw = .error (.truncatedFrame .header raw.length 24)) ∨
    (24 ≤ raw.length ∧ raw.length < 24 + (frameLength p raw - 8) ∧
      parse p raw = .error (.truncatedFrame .payload raw.length (24 + (frameLength p raw - 8)))) ∨
    (24 ≤ raw.length ∧ 24 + (frameLength p raw - 8) ≤ raw.length ∧
      parse p raw = .ok (frameOf (readHeader raw) ((raw.drop 16).take (frameLength p raw)))) := by
  rcases Nat.lt_or_ge raw.length 24 with h | h
  · exact .inl ⟨h, parse_of_no_header h⟩
  · rcases Nat.lt_or_ge raw.length (24 + (frameLength p raw - 8)) with hu | hu
    · exact .inr (.inl ⟨h, hu, parse_of_missing_unit h hu⟩)
    · exact .inr (.inr ⟨h, hu, parse_of_present h hu⟩)

theorem deliver_of_le {rtr err : Bool} {n : Nat} {h : HeaderFields} {rest : List Byte} (hl : n - 8 ≤ rest.length) :
    deliver rtr err n h rest = .ok {
      timestamp := h.timestamp, identifier := rawIdentifier h.identifier, isExtended := rawIsExtended h.identifier,
      isRemoteFrame := rtr, isErrorFrame := err, payload := (h.basePayload.toList ++ rest).take n } := by
  rw [deliver, unpack_of_le hl]

theorem deliver_of_lt {rtr err : Bool} {n : Nat} {h : HeaderFields} {rest : List Byte} (hl : rest.length < n - 8) :
    deliver rtr err n h rest = .error (.truncatedFrame .payload (24 + rest.length) (24 + (n - 8))) := by
  rw [deliver, unpack_of_lt hl]
  rfl

/-! ### Encoder -/

theorem serialize_of_large {f : LogicalFrame} (h : 255 < f.payload.length) :
    serialize f = .error (.payloadTooLarge f.payload.length) := by
  unfold serialize; exact if_pos h

theorem serialize_of_not_fits {f : LogicalFrame} (h : f.payload.length ≤ 255)
    (hi : ¬IdentifierFits f.identifier f.isExtended) :
    serialize f = .error (.invalidIdentifier f.identifier f.isExtended) := by
  unfold serialize
  simp only [if_neg (by omega : ¬255 < f.payload.length), idEncode_of_not_fits hi]

/-- The output buffer of FR.SER inside its domain: the header, then the payload unit (R136). -/
theorem serialize_of_fits {f : LogicalFrame} (h : f.payload.length ≤ 255)
    (hi : IdentifierFits f.identifier f.isExtended) :
    serialize f =
      .ok (writeHeader (serHeader f (f.identifier ||| idFlag f.isExtended)) ++ packUnit f.payload) := by
  unfold serialize
  simp only [if_neg (by omega : ¬255 < f.payload.length), idEncode_of_fits hi]
  have run : ∀ w, memWriteRun (writeHeader (serHeader f w)) 24 (packUnit f.payload) =
      writeHeader (serHeader f w) ++ packUnit f.payload := by
    intro w
    have := memWriteRun_at_end (writeHeader (serHeader f w)) (packUnit f.payload)
    rwa [length_writeHeader] at this
  rw [run, slice_zero, List.take_of_length_le (by simp [length_packUnit])]

/-- The same bytes field by field: zeros, the wire identifier, the type, two zeros, the length, the payload and its
padding (R51, R130). -/
theorem serialized_bytes (f : LogicalFrame) (w : BitVec 32) :
    writeHeader (serHeader f w) ++ packUnit f.payload =
      leBytes 8 0 ++ (leBytes 4 w.toNat ++
        ([selectFrameType f.isErrorFrame f.isRemoteFrame, 0#8, 0#8, BitVec.ofNat 8 f.payload.length] ++
          (f.payload ++ zeros (8 + trail f.payload.length - f.payload.length)))) := by
  rw [← pack_append, writeHeader_eq]
  simp only [List.append_assoc]
  rfl

end Sys2Proof.Machine
end

