-- ==== Sys2Proof/Laws/State.lean ====
section
/-! SUPPORT. One lemma per field per update of State, true by rfl. -/

namespace Sys2Proof.Machine

variable (s : State) (r : Response) (v : Result) (f : Failure) (k : Nat) (rq : Request)

@[simp] theorem State.respond_params : (s.respond r).params = s.params := rfl
@[simp] theorem State.respond_inFlight : (s.respond r).inFlight = s.inFlight := rfl
@[simp] theorem State.respond_responses : (s.respond r).responses = s.responses ++ [r] := rfl

theorem State.complete_eq : s.complete v = s.respond (.ok v) := rfl
theorem State.raise_eq : s.raise f = s.respond (.failed f) := rfl
theorem State.refuseOp_eq : s.refuseOp = s.respond .badOp := rfl

@[simp] theorem State.finish_ok : s.finish (.ok v) = s.respond (.ok v) := rfl
@[simp] theorem State.finish_error : s.finish (.error f) = s.respond (.failed f) := rfl

@[simp] theorem State.issue_params : (s.issue k rq).params = s.params := rfl
@[simp] theorem State.issue_responses : (s.issue k rq).responses = s.responses := rfl
@[simp] theorem State.issue_inFlight :
    (s.issue k rq).inFlight = s.inFlight.take k ++ rq :: s.inFlight.drop k := rfl

@[simp] theorem State.takeResponse_params : s.takeResponse.params = s.params := rfl
@[simp] theorem State.takeResponse_inFlight : s.takeResponse.inFlight = s.inFlight := rfl
@[simp] theorem State.takeResponse_responses : s.takeResponse.responses = s.responses.tail := rfl

@[simp] theorem State.applyReset_params : s.applyReset.params = s.params := rfl
@[simp] theorem State.applyReset_inFlight : s.applyReset.inFlight = [] := rfl
@[simp] theorem State.applyReset_responses : s.applyReset.responses = [] := rfl

@[simp] theorem State.reset_params : State.reset.params = Config.params := rfl
@[simp] theorem State.reset_inFlight : State.reset.inFlight = [] := rfl
@[simp] theorem State.reset_responses : State.reset.responses = [] := rfl

/-- Two responses given to one state are equal when the states they lead to are. -/
theorem State.respond_inj {s : State} {r r' : Response} : s.respond r = s.respond r' ↔ r = r' := by
  constructor
  · intro h
    have := congrArg State.responses h
    simpa using this
  · rintro rfl; rfl

/-- What an operation ends with, whichever of the two it is: one response. -/
theorem State.finish_eq_respond (x : Except Failure Result) : ∃ r : Response, s.finish x = s.respond r ∧
    ((∃ v, x = .ok v ∧ r = .ok v) ∨ ∃ f, x = .error f ∧ r = .failed f) := by
  cases x with
  | ok v => exact ⟨_, rfl, .inl ⟨v, rfl, rfl⟩⟩
  | error f => exact ⟨_, rfl, .inr ⟨f, rfl, rfl⟩⟩

end Sys2Proof.Machine
end

