-- ==== Sys2Proof/Laws/Exec.lean ====
section
/-! SUPPORT. Each meaning as one response, and the step's two cases. -/

namespace Sys2Proof.Machine

variable (s : State)

theorem exec_idDec (w : BitVec 32) : exec (.idDec w) s =
    .next (s.respond (.ok (.idDec (rawIdentifier w) (rawIsExtended w) (rawDropped w)))) := rfl

theorem exec_idEnc_of_fits {id : BitVec 32} {ext : Bool} (h : IdentifierFits id ext) :
    exec (.idEnc id ext) s = .next (s.respond (.ok (.idEnc (id ||| idFlag ext)))) := by
  show Host.Outcome.next (s.finish ((idEncode id ext).map .idEnc)) = _
  rw [idEncode_of_fits h]; rfl

theorem exec_idEnc_of_not_fits {id : BitVec 32} {ext : Bool} (h : ¬IdentifierFits id ext) :
    exec (.idEnc id ext) s = .next (s.respond (.failed (.invalidIdentifier id ext))) := by
  show Host.Outcome.next (s.finish ((idEncode id ext).map .idEnc)) = _
  rw [idEncode_of_not_fits h]; rfl

theorem exec_plTotal (n : BitVec 11) :
    exec (.plTotal n) s = .next (s.respond (.ok (.plTotal (trail n.toNat + 8)))) := by
  rw [← total_eq]; rfl

theorem exec_plTrail (n : BitVec 11) : exec (.plTrail n) s = .next (s.respond (.ok (.plTrail (trail n.toNat)))) := rfl

theorem exec_plSplit (n : BitVec 11) :
    exec (.plSplit n) s = .next (s.respond (.ok (.plSplit (min n.toNat 8) (n.toNat - 8)))) := by
  rw [← baseLen_eq, ← unitLen_eq]; rfl

theorem exec_plPack (payload : List Byte) :
    exec (.plPack payload) s = .next (s.respond (.ok (.plPack (packBase payload) (packUnit payload)))) := rfl

theorem exec_plUnpack_of_le {base : BasePayload} {n : BitVec 11} {unit : List Byte} (h : n.toNat - 8 ≤ unit.length) :
    exec (.plUnpack base n unit) s = .next (s.respond (.ok (.plUnpack ((base.toList ++ unit).take n.toNat)))) := by
  show Host.Outcome.next (s.finish ((unpack base n.toNat unit).map .plUnpack)) = _
  rw [unpack_of_le h]; rfl

theorem exec_plUnpack_of_lt {base : BasePayload} {n : BitVec 11} {unit : List Byte} (h : unit.length < n.toNat - 8) :
    exec (.plUnpack base n unit) s =
      .next (s.respond (.failed (.truncatedFrame .payload unit.length (n.toNat - 8)))) := by
  show Host.Outcome.next (s.finish ((unpack base n.toNat unit).map .plUnpack)) = _
  rw [unpack_of_lt h]; rfl

theorem exec_frParse_of_ok {raw : List Byte} {f : LogicalFrame} (h : parse s.params raw = .ok f) :
    exec (.frParse raw) s = .next (s.respond (.ok (.frParse f))) := by
  show Host.Outcome.next (s.finish ((parse s.params raw).map .frParse)) = _
  rw [h]; rfl

theorem exec_frParse_of_error {raw : List Byte} {e : Failure} (h : parse s.params raw = .error e) :
    exec (.frParse raw) s = .next (s.respond (.failed e)) := by
  show Host.Outcome.next (s.finish ((parse s.params raw).map .frParse)) = _
  rw [h]; rfl

/-- FR.PARSE delivers a frame exactly when its pseudocode returns it. -/
theorem exec_frParse_ok_iff {raw : List Byte} {f : LogicalFrame} :
    exec (.frParse raw) s = .next (s.respond (.ok (.frParse f))) ↔ parse s.params raw = .ok f := by
  constructor
  · intro h
    cases hp : parse s.params raw with
    | ok g =>
      rw [exec_frParse_of_ok s hp] at h
      simp only [Host.Outcome.next.injEq, State.respond_inj, Response.ok.injEq, Result.frParse.injEq] at h
      rw [h]
    | error e =>
      rw [exec_frParse_of_error s hp] at h
      simp [State.respond_inj] at h
  · exact exec_frParse_of_ok s

theorem exec_frSer_of_ok {f : LogicalFrame} {out : List Byte} (h : serialize f = .ok out) :
    exec (.frSer f) s = .next (s.respond (.ok (.frSer out))) := by
  show Host.Outcome.next (s.finish ((serialize f).map .frSer)) = _
  rw [h]; rfl

theorem exec_frSer_of_error {f : LogicalFrame} {e : Failure} (h : serialize f = .error e) :
    exec (.frSer f) s = .next (s.respond (.failed e)) := by
  show Host.Outcome.next (s.finish ((serialize f).map .frSer)) = _
  rw [h]; rfl

/-- FR.SER delivers bytes exactly when its pseudocode returns them. -/
theorem exec_frSer_ok_iff {f : LogicalFrame} {out : List Byte} :
    exec (.frSer f) s = .next (s.respond (.ok (.frSer out))) ↔ serialize f = .ok out := by
  constructor
  · intro h
    cases hp : serialize f with
    | ok g =>
      rw [exec_frSer_of_ok s hp] at h
      simp only [Host.Outcome.next.injEq, State.respond_inj, Response.ok.injEq, Result.frSer.injEq] at h
      rw [h]
    | error e =>
      rw [exec_frSer_of_error s hp] at h
      simp [State.respond_inj] at h
  · exact exec_frSer_of_ok s

theorem exec_frameCanData (h : HeaderFields) (rest : List Byte) : exec (.frameCanData h rest) s =
    .next (s.finish ((deliver false false h.payloadLengthLow.toNat h rest).map .frParse)) := rfl

theorem exec_frameCanRemote (h : HeaderFields) (rest : List Byte) : exec (.frameCanRemote h rest) s =
    .next (s.finish ((deliver true false h.payloadLengthLow.toNat h rest).map .frParse)) := rfl

theorem exec_frameCanBusError (h : HeaderFields) (rest : List Byte) : exec (.frameCanBusError h rest) s =
    .next (s.finish ((deliver false true h.payloadLengthLow.toNat h rest).map .frParse)) := rfl

theorem exec_frameOther (t : Byte) (h : HeaderFields) (rest : List Byte) : exec (.frameOther t h rest) s =
    .next (s.finish ((deliver false false h.payloadLengthLow.toNat h rest).map .frParse)) := rfl

theorem exec_frameJ1939Data (h : HeaderFields) (rest : List Byte) : exec (.frameJ1939Data h rest) s =
    .next (s.finish ((deliver false false (h.info.toNat % 8 * 256 + h.payloadLengthLow.toNat) h rest).map .frParse)) := by
  rw [← extendedLength_toNat]; rfl

/-- The step's two cases. -/
theorem step_idle {s : State} (h : s.inFlight = []) : step s = .next s := by
  unfold step; rw [h]

theorem step_request {s : State} {rq : Request} {others : List Request} (h : s.inFlight = rq :: others) :
    step s = exec (decodeRequest rq) { s with inFlight := others } := by
  unfold step; rw [h]

/-- A run of the machine behind the host's interface, one step at a time. -/
theorem run_zero (s : State) : Host.Core.run Sys2Proof.core 0 s = .next s := rfl

theorem run_eq (M : Host.Core) (k : Nat) (s : M.State) : M.run (k + 1) s = match M.step s with
    | .next t => M.run k t
    | .fault f => .fault f
    | .refused r => .refused r := rfl

theorem run_succ {s s' : State} (k : Nat) (h : step s = .next s') :
    Host.Core.run Sys2Proof.core (k + 1) s = Host.Core.run Sys2Proof.core k s' := by
  have := run_eq Sys2Proof.core k s
  rw [show Sys2Proof.core.step s = _ from h] at this
  exact this

end Sys2Proof.Machine
end

