-- ==== Sys2Proof/Laws/PerInstr.lean ====
section
/-! SUPPORT. A family of laws made per instruction: the shape of an instruction's encoding. -/

namespace Sys2Proof.Laws.EncodeShape

open Sys2Proof.Machine

/-- An operation is encoded on the port, by a request that decodes to it; a frame-type row is encoded as a frame of at
least a header. -/
def Statement (i : Instr) : Prop :=
  ∀ p : Params, match encode p i with
    | .port rq => decodeRequest rq = i
    | .wire raw => 24 ≤ raw.length

theorem frame (t : Byte) (h : HeaderFields) (rest : List Byte) :
    24 ≤ (writeHeader { h with frameType := t } ++ rest).length := by simp

theorem idDec (w : BitVec 32) : Statement (.idDec w) := by
  intro p; change decodeOp 0x1#4 _ = _; rfl

theorem idEnc (id : BitVec 32) (ext : Bool) : Statement (.idEnc id ext) := by
  intro p; change decodeOp 0x2#4 _ = _; rfl

theorem plTotal (n : BitVec 11) : Statement (.plTotal n) := by
  intro p; change decodeOp 0x3#4 _ = _; rfl

theorem plTrail (n : BitVec 11) : Statement (.plTrail n) := by
  intro p; change decodeOp 0x4#4 _ = _; rfl

theorem plSplit (n : BitVec 11) : Statement (.plSplit n) := by
  intro p; change decodeOp 0x5#4 _ = _; rfl

theorem plPack (payload : List Byte) : Statement (.plPack payload) := by
  intro p; change decodeOp 0x6#4 _ = _; rfl

theorem plUnpack (base : BasePayload) (n : BitVec 11) (unit : List Byte) : Statement (.plUnpack base n unit) := by
  intro p; change decodeOp 0x7#4 _ = _; rfl

theorem frParse (raw : List Byte) : Statement (.frParse raw) := by
  intro p; change decodeOp 0x8#4 _ = _; rfl

theorem frSer (f : LogicalFrame) : Statement (.frSer f) := by
  intro p; change decodeOp 0x9#4 _ = _; rfl

theorem badOp0 : Statement (.badOp0) := by
  intro p; change decodeOp 0x0#4 _ = _; rfl

theorem badOpA : Statement (.badOpA) := by
  intro p; change decodeOp 0xA#4 _ = _; rfl

theorem badOpB : Statement (.badOpB) := by
  intro p; change decodeOp 0xB#4 _ = _; rfl

theorem badOpC : Statement (.badOpC) := by
  intro p; change decodeOp 0xC#4 _ = _; rfl

theorem badOpD : Statement (.badOpD) := by
  intro p; change decodeOp 0xD#4 _ = _; rfl

theorem badOpE : Statement (.badOpE) := by
  intro p; change decodeOp 0xE#4 _ = _; rfl

theorem badOpF : Statement (.badOpF) := by
  intro p; change decodeOp 0xF#4 _ = _; rfl

theorem frameCanData (h : HeaderFields) (rest : List Byte) : Statement (.frameCanData h rest) := fun _ => frame _ h rest

theorem frameCanRemote (h : HeaderFields) (rest : List Byte) : Statement (.frameCanRemote h rest) := fun _ => frame _ h rest

theorem frameCanBusError (h : HeaderFields) (rest : List Byte) : Statement (.frameCanBusError h rest) := fun _ => frame _ h rest

theorem frameJ1939Data (h : HeaderFields) (rest : List Byte) : Statement (.frameJ1939Data h rest) := fun _ => frame _ h rest

theorem frameOther (t : Byte) (h : HeaderFields) (rest : List Byte) : Statement (.frameOther t h rest) := fun _ => frame _ h rest

end Sys2Proof.Laws.EncodeShape
end

