-- ==== Sys2Proof/Laws/Wire.lean ====
section
/-! SUPPORT. A frame's bytes field by field, read back offset by offset; when FR.PARSE and FR.SER answer OK, and with what. -/

namespace Sys2Proof.Machine

/-- Sixteen header bytes from their fields, then the base payload and the payload unit (R50, R51). -/
abbrev wireBytes (ts id : Nat) (t flags info low : Byte) (tail : List Byte) : List Byte :=
  leBytes 8 ts ++ (leBytes 4 id ++ ([t, flags, info, low] ++ tail))

section
variable (ts id : Nat) (t flags info low : Byte) (tail : List Byte)

theorem length_wireBytes : (wireBytes ts id t flags info low tail).length = 16 + tail.length := by
  simp; omega

theorem getD_wireBytes_timestamp (k : Nat) (h : k < 8) :
    (wireBytes ts id t flags info low tail).getD k 0#8 = BitVec.ofNat 8 (ts / 256 ^ k) := by
  rw [List.getD_append _ _ _ _ (by simpa), getD_leBytes _ _ _ h]

theorem getD_wireBytes_from_twelve (k : Nat) :
    (wireBytes ts id t flags info low tail).getD (12 + k) 0#8 = ([t, flags, info, low] ++ tail).getD k 0#8 := by
  rw [List.getD_append_right _ _ _ _ (by simp; omega), List.getD_append_right _ _ _ _ (by simp; omega)]
  congr 1
  simp; omega

theorem getD_wireBytes_frameType : (wireBytes ts id t flags info low tail).getD 12 0#8 = t :=
  getD_wireBytes_from_twelve ts id t flags info low tail 0

theorem getD_wireBytes_flags : (wireBytes ts id t flags info low tail).getD 13 0#8 = flags :=
  getD_wireBytes_from_twelve ts id t flags info low tail 1

theorem getD_wireBytes_info : (wireBytes ts id t flags info low tail).getD 14 0#8 = info :=
  getD_wireBytes_from_twelve ts id t flags info low tail 2

theorem getD_wireBytes_payloadLengthLow : (wireBytes ts id t flags info low tail).getD 15 0#8 = low :=
  getD_wireBytes_from_twelve ts id t flags info low tail 3

theorem getD_wireBytes_tail (k : Nat) :
    (wireBytes ts id t flags info low tail).getD (16 + k) 0#8 = tail.getD k 0#8 := by
  rw [show 16 + k = 12 + (4 + k) by omega, getD_wireBytes_from_twelve, List.getD_append_right _ _ _ _ (by simp)]
  simp

theorem drop_wireBytes : (wireBytes ts id t flags info low tail).drop 16 = tail := by
  have : wireBytes ts id t flags info low tail =
      (leBytes 8 ts ++ (leBytes 4 id ++ [t, flags, info, low])) ++ tail := by simp
  rw [this, List.drop_left']
  simp

theorem memRead_wireBytes_timestamp (h : ts < 2 ^ 64) : memRead (wireBytes ts id t flags info low tail) 0 8 = ts := by
  have := memRead_append_leBytes [] (leBytes 4 id ++ ([t, flags, info, low] ++ tail)) 8 ts
  simp only [List.nil_append, List.length_nil] at this
  rw [this]
  exact Nat.mod_eq_of_lt h

theorem memRead_wireBytes_identifier (h : id < 2 ^ 32) : memRead (wireBytes ts id t flags info low tail) 8 4 = id := by
  have := memRead_append_leBytes (leBytes 8 ts) ([t, flags, info, low] ++ tail) 4 id
  rw [length_leBytes] at this
  rw [this]
  exact Nat.mod_eq_of_lt h

end

/-! ### Answers that are OK -/

/-- The payload with its padding, base payload and unit together (R98, R130). -/
abbrev paddedPayload (payload : List Byte) : List Byte :=
  payload ++ zeros (8 + trail payload.length - payload.length)

theorem length_paddedPayload (payload : List Byte) : (paddedPayload payload).length = 8 + trail payload.length := by
  have := trail_bounds payload.length
  simp; omega

theorem getD_paddedPayload (payload : List Byte) (i : Nat) :
    (paddedPayload payload).getD i 0#8 = if i < payload.length then payload.getD i 0#8 else 0#8 := by
  rw [getD_append_zeros]
  split
  · rfl
  · rw [List.getD_eq_default _ _ (by omega)]

/-- The bytes FR.SER gives for a frame inside its domain. -/
abbrev serializedBytes (f : LogicalFrame) : List Byte :=
  wireBytes 0 (f.identifier ||| idFlag f.isExtended).toNat (selectFrameType f.isErrorFrame f.isRemoteFrame) 0#8 0#8
    (BitVec.ofNat 8 f.payload.length) (paddedPayload f.payload)

theorem serialize_eq_ok_iff {f : LogicalFrame} {out : List Byte} :
    serialize f = .ok out ↔
      f.payload.length ≤ 255 ∧ IdentifierFits f.identifier f.isExtended ∧ out = serializedBytes f := by
  constructor
  · intro h
    rcases Nat.lt_or_ge 255 f.payload.length with hl | hl
    · rw [serialize_of_large hl] at h; contradiction
    · by_cases hi : IdentifierFits f.identifier f.isExtended
      · rw [serialize_of_fits hl hi, serialized_bytes] at h
        injection h with h
        exact ⟨hl, hi, h.symm⟩
      · rw [serialize_of_not_fits hl hi] at h; contradiction
  · rintro ⟨hl, hi, rfl⟩
    rw [serialize_of_fits hl hi, serialized_bytes]

/-- What an OK answer of FR.PARSE says of the buffer and of the frame. -/
theorem parse_eq_ok {p : Params} {raw : List Byte} {f : LogicalFrame} (h : parse p raw = .ok f) :
    24 ≤ raw.length ∧ 24 + (frameLength p raw - 8) ≤ raw.length ∧
      f = frameOf (readHeader raw) ((raw.drop 16).take (frameLength p raw)) ∧
      f.payload.length = frameLength p raw := by
  rcases parse_cases p raw with ⟨_, e⟩ | ⟨_, _, e⟩ | ⟨hl, hu, e⟩ <;> rw [e] at h
  · contradiction
  · contradiction
  · injection h with h
    refine ⟨hl, hu, h.symm, ?_⟩
    rw [← h]
    simp [frameOf]; omega

end Sys2Proof.Machine
end

