-- ==== Sys2Proof/Tests/Slice0.lean ====
section
/-! SUPPORT. Tests: the WellFormed smoke, words written out from the encoding tables, one-step tests from
spec/95_test_vectors.md, and for every statement with hypotheses a witness that meets them. -/

namespace Sys2Proof.Tests

open Sys2Proof.Machine

/-- A legal strap; 0xC0 is the number the spec's own vectors use (95_test_vectors.md, "J"). -/
def strap : Params := ⟨0xC0#8, 2063⟩

/-- A block with nothing in flight. -/
def blank : State := ⟨strap, [], []⟩

/-- The responses after one instruction. -/
def answers : Host.Outcome State Fault Refusal → List Response
  | .next t => t.responses
  | .fault _ => []
  | .refused _ => []

/-- A header with the fields that matter in a test. -/
def header (timestamp : BitVec 64) (identifier : BitVec 32) (flags info low : Byte) (base : BasePayload) : HeaderFields :=
  ⟨timestamp, identifier, flags, info, low, base⟩

/-- Base payload `01 .. 08`. -/
def base8 : BasePayload := #v[1#8, 2#8, 3#8, 4#8, 5#8, 6#8, 7#8, 8#8]

/-- Vector P10: frame type 3, flags and info all ones. -/
def bytesP10 : List Byte :=
  [7#8, 0#8, 0#8, 0#8, 0#8, 0#8, 0#8, 0#8, 0x00#8, 0x08#8, 0#8, 0#8, 3#8, 0xFF#8, 0xFF#8, 3#8,
   0x11#8, 0x22#8, 0x33#8, 0x44#8, 0x55#8, 0x66#8, 0x77#8, 0x88#8]

/-- Vector P4: P3 cut to its first 27 bytes. -/
def bytesP4 : List Byte :=
  [0x88#8, 0x77#8, 0x66#8, 0x55#8, 0x44#8, 0x33#8, 0x22#8, 0x11#8, 0x2E#8, 0x3A#8, 0xEF#8, 0x33#8, 0#8, 0#8, 0#8, 0x0B#8,
   1#8, 2#8, 3#8, 4#8, 5#8, 6#8, 7#8, 8#8, 9#8, 0xA#8, 0xB#8]

/-- Vector P20: a short J1939 frame. -/
def bytesP20 : List Byte :=
  [0#8, 0#8, 0#8, 0#8, 0#8, 0#8, 0#8, 0#8, 0x00#8, 0x01#8, 0#8, 0#8, 0xC0#8, 0#8, 0#8, 5#8,
   1#8, 2#8, 3#8, 4#8, 5#8, 6#8, 7#8, 8#8]

/-! ### WellFormed: one ill-formed term for each check -/

theorem test_wf_plPack_2048 : (Instr.plPack (zeros 2048)).wellFormed strap = false := by
  simp [Instr.wellFormed, payloadFits]

theorem test_wf_plPack_2047 : (Instr.plPack (zeros 2047)).wellFormed strap = true := by
  simp [Instr.wellFormed, payloadFits]

theorem test_wf_frSer_2048 : (Instr.frSer ⟨0, 0, false, false, false, zeros 2048⟩).wellFormed strap = false := by
  simp [Instr.wellFormed, payloadFits]

theorem test_wf_plUnpack_2040 : (Instr.plUnpack base8 9#11 (zeros 2040)).wellFormed strap = false := by
  simp [Instr.wellFormed, unitFits, strap]

theorem test_wf_frParse_2064 : (Instr.frParse (zeros 2064)).wellFormed strap = false := by
  simp [Instr.wellFormed, rawFits, strap]

theorem test_wf_frameCanData_2040 : (Instr.frameCanData (header 0 0 0 0 0 base8) (zeros 2040)).wellFormed strap = false := by
  simp [Instr.wellFormed, unitFits, strap]

theorem test_wf_frameOther_type_2 : (Instr.frameOther 2#8 (header 0 0 0 0 0 base8) []).wellFormed strap = false := by decide

theorem test_wf_frameOther_type_C0 : (Instr.frameOther 0xC0#8 (header 0 0 0 0 0 base8) []).wellFormed strap = false := by
  decide

theorem test_wf_frameOther_type_3 : (Instr.frameOther 3#8 (header 0 0 0 0 0 base8) []).wellFormed strap = true := by decide

/-! ### Decoding: every select code (R70) and every frame type (R63), from words written out -/

theorem test_decode_0 : decodeTableWord 8 0x0 = some .badOp0 := by decide
theorem test_decode_1 : decodeTableWord 8 0x1 = some (.idDec 0#32) := by decide
theorem test_decode_2 : decodeTableWord 8 0x2 = some (.idEnc 0#32 false) := by decide
theorem test_decode_3 : decodeTableWord 8 0x3 = some (.plTotal 0#11) := by decide
theorem test_decode_4 : decodeTableWord 8 0x4 = some (.plTrail 0#11) := by decide
theorem test_decode_5 : decodeTableWord 8 0x5 = some (.plSplit 0#11) := by decide
theorem test_decode_6 : decodeTableWord 8 0x6 = some (.plPack []) := by decide
theorem test_decode_7 : decodeTableWord 8 0x7 = some (.plUnpack (Vector.replicate 8 0#8) 0#11 []) := by decide
theorem test_decode_8 : decodeTableWord 8 0x8 = some (.frParse []) := by decide
theorem test_decode_9 : decodeTableWord 8 0x9 = some (.frSer ⟨0#64, 0#32, false, false, false, []⟩) := by decide
theorem test_decode_A : decodeTableWord 8 0xA = some .badOpA := by decide
theorem test_decode_B : decodeTableWord 8 0xB = some .badOpB := by decide
theorem test_decode_C : decodeTableWord 8 0xC = some .badOpC := by decide
theorem test_decode_D : decodeTableWord 8 0xD = some .badOpD := by decide
theorem test_decode_E : decodeTableWord 8 0xE = some .badOpE := by decide
theorem test_decode_F : decodeTableWord 8 0xF = some .badOpF := by decide

/-- Operand lines reach the operation they belong to (R19). -/
theorem test_decode_operands :
    decodeRequest ⟨0x2#4, { Operands.cleared with rawId := 5#32, identifier := 6#32, isExtended := true, n := 7#11 }⟩ =
      .idEnc 6#32 true := by decide

/-- Vector P1's header, `01 00 .. | 02 00 00 00 | 00 | ..`. -/
theorem test_decode_canData :
    decodeTableWord 192 0x000000000000000000000000000000020000000000000001 =
      some (.frameCanData (header 1 2 0 0 0 (Vector.replicate 8 0#8)) []) := by decide

/-- Vector P8's header. -/
theorem test_decode_canRemote :
    decodeTableWord 192 0x000000000000000000000001000007FF0000000000000005 =
      some (.frameCanRemote (header 5 0x7FF 0 0 0 (Vector.replicate 8 0#8)) []) := by decide

/-- Vector P9's header. -/
theorem test_decode_canBusError :
    decodeTableWord 192 0xDDCCBBAAEFBEADDE04000002200000010000000000000006 =
      some (.frameCanBusError
        (header 6 0x20000001 0 0 4 #v[0xDE#8, 0xAD#8, 0xBE#8, 0xEF#8, 0xAA#8, 0xBB#8, 0xCC#8, 0xDD#8]) []) := by decide

theorem test_decode_j1939Data : decode strap (.wire bytesP20) = .ok (.frameJ1939Data (header 0 0x100 0 0 5 base8) []) := by
  decide

theorem test_decode_other :
    decode strap (.wire bytesP10) =
      .ok (.frameOther 3#8 (header 7 0x800 0xFF 0xFF 3 #v[0x11#8, 0x22#8, 0x33#8, 0x44#8, 0x55#8, 0x66#8, 0x77#8, 0x88#8])
        []) := by decide

theorem test_decode_short : decodeBytes strap (bytesP10.take 23) = .error (.headerTruncated 23) := by decide
theorem test_decode_not_a_code : decodeBytes strap [0x10#8] = .error (.notASelectCode 0x10#8) := by decide
theorem test_decode_empty : decodeBytes strap [] = .error .empty := by decide

/-- The encoder on the same header gives the same bytes. -/
theorem test_encode_j1939Data : encode strap (.frameJ1939Data (header 0 0x100 0 0 5 base8) []) = .wire bytesP20 := by decide

/-! ### One step: vectors of 95_test_vectors.md -/

/-- Section 2.6, first row: a step answers the request in flight. -/
theorem test_step_idDec :
    answers (step ⟨strap, [⟨0x1#4, { Operands.cleared with rawId := 0x33EF3A2E#32 }⟩], []⟩) =
      [.ok (.idDec 0x13EF3A2E#32 true 0#32)] := by decide

theorem test_step_withFetchWord : answers (step (State.reset.withFetchWord 8 0xC)) = [.badOp] := by decide

/-- The frame of vector P8 runs as the very first step after reset. -/
theorem test_step_withFetchWord_frame :
    answers (step (State.reset.withFetchWord 192 0x000000000000000000000001000007FF0000000000000005)) =
      [.ok (.frParse ⟨5#64, 0x7FF#32, false, true, false, []⟩)] := by decide

theorem test_idDec_all_but_flag :
    answers (exec (.idDec 0xDFFFFFFF#32) blank) = [.ok (.idDec 0x7FF#32 false 0xDFFFF800#32)] := by decide

theorem test_idEnc_extended :
    answers (exec (.idEnc 0x13EF3A2E#32 true) blank) = [.ok (.idEnc 0x33EF3A2E#32)] := by decide

theorem test_idEnc_one_past :
    answers (exec (.idEnc 0x800#32 false) blank) = [.failed (.invalidIdentifier 0x800#32 false)] := by decide

theorem test_plTotal_16 : answers (exec (.plTotal 16#11) blank) = [.ok (.plTotal 16)] := by decide
theorem test_plTotal_2041 : answers (exec (.plTotal 2041#11) blank) = [.ok (.plTotal 2048)] := by decide
theorem test_plTrail_8 : answers (exec (.plTrail 8#11) blank) = [.ok (.plTrail 0)] := by decide
theorem test_plTrail_9 : answers (exec (.plTrail 9#11) blank) = [.ok (.plTrail 8)] := by decide
theorem test_plSplit_9 : answers (exec (.plSplit 9#11) blank) = [.ok (.plSplit 8 1)] := by decide
theorem test_plSplit_7 : answers (exec (.plSplit 7#11) blank) = [.ok (.plSplit 7 0)] := by decide

theorem test_plPack_9 :
    answers (exec (.plPack [1#8, 2#8, 3#8, 4#8, 5#8, 6#8, 7#8, 8#8, 9#8]) blank) =
      [.ok (.plPack base8 [9#8, 0#8, 0#8, 0#8, 0#8, 0#8, 0#8, 0#8])] := by decide

theorem test_plPack_1 :
    answers (exec (.plPack [0xAA#8]) blank) =
      [.ok (.plPack #v[0xAA#8, 0#8, 0#8, 0#8, 0#8, 0#8, 0#8, 0#8] [])] := by decide

theorem test_plUnpack_extra :
    answers (exec (.plUnpack base8 11#11 [9#8, 0xA#8, 0xB#8, 0xFF#8, 0xFF#8]) blank) =
      [.ok (.plUnpack [1#8, 2#8, 3#8, 4#8, 5#8, 6#8, 7#8, 8#8, 9#8, 0xA#8, 0xB#8])] := by decide

theorem test_plUnpack_short :
    answers (exec (.plUnpack base8 11#11 [9#8, 0xA#8]) blank) = [.failed (.truncatedFrame .payload 2 3)] := by decide

theorem test_frParse_P4 :
    answers (exec (.frParse bytesP4) blank) =
      [.ok (.frParse ⟨0x1122334455667788#64, 0x13EF3A2E#32, true, false, false,
        [1#8, 2#8, 3#8, 4#8, 5#8, 6#8, 7#8, 8#8, 9#8, 0xA#8, 0xB#8]⟩)] := by decide

theorem test_frParse_P5 :
    answers (exec (.frParse (bytesP4.take 26)) blank) = [.failed (.truncatedFrame .payload 26 27)] := by decide

/-- Vector S6: both flags set. -/
theorem test_frSer_S6 :
    answers (exec (.frSer ⟨0#64, 0x10#32, false, true, true, [0x55#8]⟩) blank) =
      [.ok (.frSer [0#8, 0#8, 0#8, 0#8, 0#8, 0#8, 0#8, 0#8, 0x10#8, 0#8, 0#8, 0#8, 2#8, 0#8, 0#8, 1#8,
        0x55#8, 0#8, 0#8, 0#8, 0#8, 0#8, 0#8, 0#8])] := by decide

/-- Vector S10: wrong both ways, the length is reported. -/
theorem test_frSer_S10 :
    answers (exec (.frSer ⟨0#64, 0x800#32, false, false, false, zeros 300⟩) blank) = [.failed (.payloadTooLarge 300)] := by
  rw [exec_frSer_of_error blank (serialize_of_large (by simp))]
  simp [answers, blank]

theorem test_badOps :
    [Instr.badOp0, .badOpA, .badOpB, .badOpC, .badOpD, .badOpE, .badOpF].all (fun i => answers (exec i blank) = [.badOp]) =
      true := by decide

/-- Vector P3's header and unit. -/
theorem test_frameCanData_P3 :
    answers (exec (.frameCanData (header 0x1122334455667788 0x33EF3A2E 0 0 0x0B base8)
        [9#8, 0xA#8, 0xB#8, 0#8, 0#8, 0#8, 0#8, 0#8]) blank) =
      [.ok (.frParse ⟨0x1122334455667788#64, 0x13EF3A2E#32, true, false, false,
        [1#8, 2#8, 3#8, 4#8, 5#8, 6#8, 7#8, 8#8, 9#8, 0xA#8, 0xB#8]⟩)] := by decide

theorem test_frameCanRemote_P8 :
    answers (exec (.frameCanRemote (header 5 0x7FF 0 0 0 (Vector.replicate 8 0#8)) []) blank) =
      [.ok (.frParse ⟨5#64, 0x7FF#32, false, true, false, []⟩)] := by decide

theorem test_frameCanBusError_P9 :
    answers (exec (.frameCanBusError
        (header 6 0x20000001 0 0 4 #v[0xDE#8, 0xAD#8, 0xBE#8, 0xEF#8, 0xAA#8, 0xBB#8, 0xCC#8, 0xDD#8]) []) blank) =
      [.ok (.frParse ⟨6#64, 1#32, true, false, true, [0xDE#8, 0xAD#8, 0xBE#8, 0xEF#8]⟩)] := by decide

theorem test_frameJ1939Data_P20 :
    answers (exec (.frameJ1939Data (header 0 0x100 0 0 5 base8) []) blank) =
      [.ok (.frParse ⟨0#64, 0x100#32, false, false, false, [1#8, 2#8, 3#8, 4#8, 5#8]⟩)] := by decide

/-- Vector P12's header with no unit: `info = F9`, length 258, so 250 unit bytes are missing. -/
theorem test_frameJ1939Data_extension :
    answers (exec (.frameJ1939Data (header 9 0x38FEF100 0 0xF9 2 base8) []) blank) =
      [.failed (.truncatedFrame .payload 24 274)] := by decide

theorem test_frameOther_P10 :
    answers (exec (.frameOther 3#8
        (header 7 0x800 0xFF 0xFF 3 #v[0x11#8, 0x22#8, 0x33#8, 0x44#8, 0x55#8, 0x66#8, 0x77#8, 0x88#8]) []) blank) =
      [.ok (.frParse ⟨7#64, 0#32, false, false, false, [0x11#8, 0x22#8, 0x33#8]⟩)] := by decide

/-! ### Witnesses: states and operands that meet each statement's hypotheses, clause by clause -/

/-- A block with two requests in flight and one response waiting. -/
def busy : State := ⟨strap, [⟨0x1#4, .cleared⟩, ⟨0x0#4, .cleared⟩], [.badOp]⟩

theorem witness_HeaderFieldsAtTheirOffsets :
    strap.Legal ∧ strap.ftJ1939Data = 0xC0#8 ∧ (2 < (3#8 : Byte).toNat ∧ 3#8 ≠ strap.ftJ1939Data) ∧
      (2 < (0xFF#8 : Byte).toNat ∧ 0xFF#8 ≠ strap.ftJ1939Data) := by decide

theorem witness_DecodeInvertsEncode :
    strap.Legal ∧ (Instr.frSer ⟨0, 0, false, false, false, []⟩).wellFormed strap = true ∧
      (Instr.badOp0).wellFormed strap = true ∧ (Instr.idEnc 5#32 true).wellFormed strap = true ∧
      (Instr.frameJ1939Data (header 0 0 0 0 0 base8) []).wellFormed strap = true ∧
      (Instr.frameOther 0xFF#8 (header 0 0 0 0 0 base8) [1#8]).wellFormed strap = true := by decide

theorem witness_WireDecodingLosesNothing :
    decode strap (.wire bytesP20) = .ok (.frameJ1939Data (header 0 0x100 0 0 5 base8) []) := by decide

theorem witness_RequestReadsOnlyItsOwnOperands :
    Operands.AgreeFor 0x3#4 { Operands.cleared with n := 9#11, rawId := 1#32 } { Operands.cleared with n := 9#11 } ∧
      ({ Operands.cleared with n := 9#11, rawId := 1#32 } : Operands) ≠ { Operands.cleared with n := 9#11 } ∧
      Operands.AgreeFor 0xC#4 { Operands.cleared with n := 9#11 } .cleared := by decide

theorem witness_StepRunsTheDecodedRequest : busy.inFlight = ⟨0x1#4, .cleared⟩ :: [⟨0x0#4, .cleared⟩] := by decide

theorem witness_IdleStepChangesNothing : blank.inFlight = [] ∧ State.reset.inFlight = [] := ⟨rfl, rfl⟩

theorem witness_ParseRequestRunsItsFrameRow :
    let x := { Operands.cleared with raw := bytesP20 }
    let s : State := ⟨strap, [⟨0x8#4, x⟩], []⟩
    s.params.Legal ∧ s.inFlight = ⟨0x8#4, x⟩ :: [] ∧
      decode s.params (.wire x.raw) = .ok (.frameJ1939Data (header 0 0x100 0 0 5 base8) []) := by decide

theorem witness_ResponseDependsOnRequestAndStrapAlone :
    let t : State := ⟨⟨0xC0#8, 4096⟩, [⟨0x1#4, .cleared⟩], []⟩
    busy.params.ftJ1939Data = t.params.ftJ1939Data ∧ busy ≠ t ∧
      busy.inFlight = ⟨0x1#4, .cleared⟩ :: [⟨0x0#4, .cleared⟩] ∧ t.inFlight = ⟨0x1#4, .cleared⟩ :: [] := by decide

theorem witness_AnsweringOrderOnlyReordersResponses :
    let t : State := ⟨strap, [⟨0x0#4, .cleared⟩, ⟨0x1#4, .cleared⟩], [.badOp]⟩
    busy.params = t.params ∧ busy.responses = t.responses ∧ busy.inFlight.Perm t.inFlight ∧ busy ≠ t :=
  ⟨rfl, rfl, List.Perm.swap _ _ _, by decide⟩

theorem witness_FirstTransactionAfterResetIsOrdinary :
    busy.params = busy.params ∧ busy.inFlight = ⟨0x1#4, .cleared⟩ :: [⟨0x0#4, .cleared⟩] := by decide

theorem witness_UnassignedCodesAnswerBadOp :
    ((0x0#4).toNat = 0 ∨ 10 ≤ (0x0#4).toNat) ∧ ((0xA#4).toNat = 0 ∨ 10 ≤ (0xA#4).toNat) ∧
      ((0xF#4).toNat = 0 ∨ 10 ≤ (0xF#4).toNat) ∧ ¬((0x9#4).toNat = 0 ∨ 10 ≤ (0x9#4).toNat) := by decide

theorem witness_MemReadIsTheLittleEndianSum : 16 + 8 ≤ bytesP20.length ∧ memRead bytesP20 8 4 = 0x100 := by decide

theorem witness_MemWritePutsEachByteAtItsOffset :
    (24 : Nat) ≤ bytesP20.length ∧ 8 ≤ bytesP20.length ∧ 0xFFFFFFFF < 2 ^ (8 * 4) ∧
      (7 < 8 ∨ 8 + 4 ≤ 7) ∧ (12 < 8 ∨ 8 + 4 ≤ 12) := by decide

theorem witness_WireIdentifierByteView :
    12 ≤ bytesP4.length ∧ 0x33EF3A2E#32 = BitVec.ofNat 32 (memRead bytesP4 8 4) := by decide

theorem witness_IdEncResult :
    0x7FF#32 &&& ~~~0x000007FF#32 = 0#32 ∧ 0x800#32 &&& ~~~0x000007FF#32 ≠ 0#32 ∧
      0x1FFFFFFF#32 &&& ~~~0x1FFFFFFF#32 = 0#32 ∧ 0x20000000#32 &&& ~~~0x1FFFFFFF#32 ≠ 0#32 := by decide

theorem witness_EncodedIdentifierDecodesBack :
    exec (.idEnc 0x7FF#32 true) blank = .next (blank.respond (.ok (.idEnc 0x200007FF#32))) := by rfl

theorem witness_PlTotalIsTheLeastMultiple : (8#11).toNat ≤ 8 ∧ 8 < (9#11).toNat ∧ 16 % 8 = 0 ∧ (9#11).toNat ≤ 16 := by
  decide

theorem witness_PlTrailIsTotalLessEight : 8 % 8 = 0 ∧ (9#11).toNat - 8 ≤ 8 ∧ 0 % 8 = 0 ∧ (8#11).toNat - 8 ≤ 0 := by decide

theorem witness_CalculatorIsConsistent : (8#11).toNat ≤ 8 ∧ 8 < (9#11).toNat := by decide

theorem witness_PlPackByteByByte : (7 : Nat) < 8 ∧ (0 : Nat) < trail [1#8, 2#8, 3#8, 4#8, 5#8, 6#8, 7#8, 8#8, 9#8].length := by
  decide

theorem witness_PlUnpackByteByByte :
    (9#11).toNat - 8 ≤ [1#8].length ∧ ([] : List Byte).length < (9#11).toNat - 8 ∧ (8#11).toNat - 8 ≤ ([] : List Byte).length := by
  decide

theorem witness_PackAndUnpackAreInverse :
    (zeros 2047).length ≤ 2047 ∧
      ([9#8, 0xFF#8] : List Byte).take (9 - 8) = ([9#8, 0#8, 0#8, 0#8, 0#8, 0#8, 0#8, 0#8] : List Byte).take (9 - 8) ∧
      exec (.plUnpack base8 9#11 [9#8]) blank =
        .next (blank.respond (.ok (.plUnpack [1#8, 2#8, 3#8, 4#8, 5#8, 6#8, 7#8, 8#8, 9#8]))) :=
  ⟨by simp, by decide, exec_plUnpack_of_le blank (by decide)⟩

theorem witness_FrParseResult :
    blank.params.Legal ∧ (bytesP4.take 23).length < 24 ∧ 24 ≤ bytesP20.length ∧
      24 + ((byteAt bytesP4 15).toNat - 8) = bytesP4.length ∧ byteAt bytesP4 12 ≠ blank.params.ftJ1939Data ∧
      byteAt bytesP20 12 = blank.params.ftJ1939Data ∧
      24 + ((byteAt bytesP20 14).toNat % 8 * 256 + (byteAt bytesP20 15).toNat - 8) ≤ bytesP20.length := by decide

theorem witness_FrParseMissingUnitBytes :
    blank.params.Legal ∧ 24 ≤ (bytesP4.take 26).length ∧ byteAt (bytesP4.take 26) 12 ≠ blank.params.ftJ1939Data ∧
      (bytesP4.take 26).length < 24 + ((byteAt (bytesP4.take 26) 15).toNat - 8) := by decide

/-- Vector P4 and the same frame with other flags, other info and more bytes after it. -/
theorem witness_FrParseIgnoresUnusedParts :
    let raw' := bytesP4.take 13 ++ [0x80#8, 0x07#8] ++ bytesP4.drop 15 ++ [0xEE#8]
    24 ≤ bytesP4.length ∧ 24 ≤ raw'.length ∧ raw' ≠ bytesP4 ∧
      (∀ k, k < 8 → byteAt bytesP4 k = byteAt raw' k) ∧
      (BitVec.ofNat 32 (memRead bytesP4 8 4) ^^^ BitVec.ofNat 32 (memRead raw' 8 4)) &&&
        (if BitVec.ofNat 32 (memRead bytesP4 8 4) &&& 0x20000000#32 ≠ 0#32 then 0x3FFFFFFF#32 else 0x200007FF#32) = 0#32 ∧
      byteAt bytesP4 12 = byteAt raw' 12 ∧ byteAt bytesP4 12 ≠ blank.params.ftJ1939Data ∧
      byteAt bytesP4 15 = byteAt raw' 15 ∧
      (∀ i, i < 8 → byteAt bytesP4 (16 + i) = byteAt raw' (16 + i)) ∧
      (∀ j, j < 11 - 8 → byteAt bytesP4 (24 + j) = byteAt raw' (24 + j)) ∧
      24 + (11 - 8) ≤ bytesP4.length ∧ 24 + (11 - 8) ≤ raw'.length := by decide

/-- The same for a J1939 frame: vector P20 with other bits 7:3 of its info byte and other padding. -/
theorem witness_FrParseIgnoresUnusedParts_j1939 :
    let raw' := bytesP20.take 14 ++ [0xF8#8] ++ (bytesP20.drop 15).take 6 ++ [0xEE#8, 0xEE#8, 0xEE#8]
    24 ≤ bytesP20.length ∧ 24 ≤ raw'.length ∧ raw' ≠ bytesP20 ∧ (∀ k, k < 8 → byteAt bytesP20 k = byteAt raw' k) ∧
      memRead bytesP20 8 4 = memRead raw' 8 4 ∧ byteAt bytesP20 12 = byteAt raw' 12 ∧
      byteAt bytesP20 12 = blank.params.ftJ1939Data ∧
      (byteAt bytesP20 14).toNat % 8 = (byteAt raw' 14).toNat % 8 ∧ byteAt bytesP20 15 = byteAt raw' 15 ∧
      (∀ i, i < 5 → byteAt bytesP20 (16 + i) = byteAt raw' (16 + i)) ∧ bytesP20.length = raw'.length := by decide

theorem witness_FrParseReadsAtMost2063Bytes : 2063 ≤ (zeros 2063).length := by simp

theorem parse_P20 :
    parse strap bytesP20 = .ok ⟨0#64, 0x100#32, false, false, false, [1#8, 2#8, 3#8, 4#8, 5#8]⟩ := by decide

theorem parse_P4 :
    parse strap bytesP4 = .ok ⟨0x1122334455667788#64, 0x13EF3A2E#32, true, false, false,
      [1#8, 2#8, 3#8, 4#8, 5#8, 6#8, 7#8, 8#8, 9#8, 0xA#8, 0xB#8]⟩ := by decide

/-- A J1939 frame of 256 bytes: 248 zero unit bytes behind a header with `info = 1`. -/
def bytesJ256 : List Byte := bytesP20.take 14 ++ [1#8, 0#8] ++ bytesP20.drop 16 ++ zeros 248

theorem parse_J256 : ∃ f, parse strap bytesJ256 = .ok f ∧ f.payload.length = 256 := by
  have hN : frameLength strap bytesJ256 = 256 := by decide
  have hl : bytesJ256.length = 272 := by
    rw [bytesJ256, List.length_append, List.length_replicate]; decide
  have := parse_of_present (p := strap) (raw := bytesJ256) (by omega) (by omega)
  exact ⟨_, this, (parse_eq_ok this).2.2.2.trans hN⟩

/-- Parsed frames on both sides of 255 bytes, one of them extended and of another type than J1939, one standard. -/
theorem witness_ParsedFrameIsValid :
    blank.params.Legal ∧
    (∃ raw f, exec (.frParse raw) blank = .next (blank.respond (.ok (.frParse f))) ∧ f.isExtended = true ∧
      byteAt raw 12 ≠ blank.params.ftJ1939Data) ∧
    (∃ raw f, exec (.frParse raw) blank = .next (blank.respond (.ok (.frParse f))) ∧ f.isExtended = false) ∧
    (∃ raw f, exec (.frParse raw) blank = .next (blank.respond (.ok (.frParse f))) ∧ f.payload.length ≤ 255) ∧
    (∃ raw f, exec (.frParse raw) blank = .next (blank.respond (.ok (.frParse f))) ∧ 255 < f.payload.length) := by
  obtain ⟨f, hf, hl⟩ := parse_J256
  exact ⟨by decide, ⟨_, _, exec_frParse_of_ok blank parse_P4, rfl, by decide⟩,
    ⟨_, _, exec_frParse_of_ok blank parse_P20, rfl⟩, ⟨_, _, exec_frParse_of_ok blank parse_P20, by decide⟩,
    ⟨_, f, exec_frParse_of_ok blank hf, by omega⟩⟩

theorem witness_ParsedFrameSerializesToCanonicalForm :
    blank.params.Legal ∧
    (∃ raw f, exec (.frParse raw) blank = .next (blank.respond (.ok (.frParse f))) ∧ f.payload.length ≤ 255) ∧
    (∃ raw f, exec (.frParse raw) blank = .next (blank.respond (.ok (.frParse f))) ∧ 255 < f.payload.length) :=
  ⟨witness_ParsedFrameIsValid.1, witness_ParsedFrameIsValid.2.2.2⟩

theorem witness_FrameRowsDeliverTheirFlags :
    (header 0 0 0 0 9 base8).payloadLengthLow.toNat - 8 ≤ [1#8].length ∧
      (header 0 0 0 0 8 base8).payloadLengthLow.toNat - 8 ≤ ([] : List Byte).length := by decide

theorem witness_OtherAndJ1939RowsLookLikeData :
    (header 0 0 0 7 9 base8).payloadLengthLow.toNat - 8 ≤ [1#8].length ∧
      (header 0 0 0 0xF8 9 base8).info.toNat % 8 * 256 + (header 0 0 0 0xF8 9 base8).payloadLengthLow.toNat - 8 ≤
        [1#8].length := by decide

theorem witness_FrameRowsMissingUnitBytes :
    ([] : List Byte).length < (header 0 0 0 0 9 base8).payloadLengthLow.toNat - 8 ∧
      ([] : List Byte).length <
        (header 0 0 0 7 0xFF base8).info.toNat % 8 * 256 + (header 0 0 0 7 0xFF base8).payloadLengthLow.toNat - 8 := by
  decide

/-- Both sides of the length bound and of both identifier bounds; a frame of each of the three types. -/
theorem witness_FrSerResult :
    255 < (zeros 256).length ∧ (zeros 255).length ≤ 255 ∧ ¬IdentifierFits 0x800#32 false ∧ IdentifierFits 0x7FF#32 false ∧
      ¬IdentifierFits 0x20000000#32 true ∧ IdentifierFits 0x1FFFFFFF#32 true ∧ ¬(true = true ∧ false = true) :=
  ⟨by simp, by simp, by decide, by decide, by decide, by decide, by decide⟩

/-- Vector S6's frame. -/
theorem witness_ErrorFlagTakesPrecedence :
    let f : LogicalFrame := ⟨0#64, 0x10#32, false, true, true, [0x55#8]⟩
    f.payload.length ≤ 255 ∧ IdentifierFits f.identifier f.isExtended ∧ f.isRemoteFrame = true ∧ f.isErrorFrame = true := by
  decide

theorem witness_SerializedFrameParsesBack :
    let f : LogicalFrame := ⟨9#64, 0x7FF#32, false, true, false, zeros 255⟩
    let g : LogicalFrame := ⟨0#64, 0x10#32, false, true, true, [0x55#8]⟩
    blank.params.Legal ∧ f.payload.length ≤ 255 ∧ f.SerValid ∧
      g.payload.length ≤ 255 ∧ IdentifierFits g.identifier g.isExtended ∧ g.isRemoteFrame = true ∧ g.isErrorFrame = true :=
  ⟨by decide, by simp, ⟨by simp, by decide, by decide⟩, by decide, by decide, rfl, rfl⟩

/-- Both sides of the equivalence: an output of FR.SER is canonical; a buffer with a non-zero flags byte is not. -/
theorem witness_EncoderOutputsAreTheCanonicalFrames :
    Canonical (zeros 24) ∧ ¬Canonical (zeros 13 ++ [1#8] ++ zeros 10) := by decide

theorem witness_EveryAnswerFitsItsPort :
    blank.params.Legal ∧ (Instr.plPack (zeros 2047)).wellFormed blank.params = true ∧
      (Instr.frParse (zeros 2063)).wellFormed blank.params = true :=
  ⟨by decide, by simp [Instr.wellFormed, payloadFits], by simp [Instr.wellFormed, rawFits, blank, strap]⟩

/-- The invariant holds with requests in flight and a response waiting, and the step leads on. -/
theorem witness_StepKeepsTheInvariant :
    busy.Inv ∧ step busy = .next ⟨strap, [⟨0x0#4, .cleared⟩], [.badOp, .ok (.idDec 0#32 false 0#32)]⟩ :=
  ⟨⟨by decide, by decide, by simp [busy, Response.Fits]⟩, by rfl⟩

/-- A state the invariant refuses: a strap of 2. -/
theorem witness_invariant_refuses : ¬(⟨⟨2#8, 2063⟩, [], []⟩ : State).Inv := fun h => absurd h.legal (by decide)

end Sys2Proof.Tests
end

section
/-! SUPPORT. The response of an instruction is a function of its operands and of FT_J1939_DATA (R10): two blocks with the
same strap byte answer alike. The strap is read by FR.PARSE alone, through the frame-type map. -/

namespace Sys2Proof.Machine

/-! ### What reads the strap -/

section
variable {p q : Params} (h : p.ftJ1939Data = q.ftJ1939Data)
include h

theorem classify_congr_ftJ1939Data (t : Byte) : classify p t = classify q t := by
  unfold classify
  rw [h]

theorem payloadLength_congr_ftJ1939Data (t info low : Byte) :
    payloadLength p t info low = payloadLength q t info low := by
  unfold payloadLength
  rw [classify_congr_ftJ1939Data h]

theorem parse_congr_ftJ1939Data (raw : List Byte) : parse p raw = parse q raw := by
  unfold parse
  simp only [payloadLength_congr_ftJ1939Data h]

end

/-! ### Two blocks answering alike -/

/-- What an operation ends with is given as the same response by every block. -/
theorem finish_responds_alike (s t : State) (x : Except Failure Result) :
    ∃ r : Response, Host.Outcome.next (φ := Fault) (ρ := Refusal) (s.finish x) = .next (s.respond r) ∧
      Host.Outcome.next (φ := Fault) (ρ := Refusal) (t.finish x) = .next (t.respond r) := by
  cases x with
  | ok v => exact ⟨.ok v, by rw [State.finish_ok], by rw [State.finish_ok]⟩
  | error f => exact ⟨.failed f, by rw [State.finish_error], by rw [State.finish_error]⟩

/-- FR.PARSE is the one operation that reads the strap, and of it FT_J1939_DATA alone. -/
theorem exec_frParse_responds_alike {s t : State} (h : s.params.ftJ1939Data = t.params.ftJ1939Data)
    (raw : List Byte) :
    ∃ r : Response, exec (.frParse raw) s = .next (s.respond r) ∧ exec (.frParse raw) t = .next (t.respond r) := by
  have same : parse s.params raw = parse t.params raw := parse_congr_ftJ1939Data h raw
  cases ht : parse t.params raw with
  | ok f => exact ⟨_, exec_frParse_of_ok s (same.trans ht), exec_frParse_of_ok t ht⟩
  | error e => exact ⟨_, exec_frParse_of_error s (same.trans ht), exec_frParse_of_error t ht⟩

/-- An instruction adds one response and changes nothing else, and two blocks with the same FT_J1939_DATA add the same. -/
theorem exec_responds_alike (i : Instr) {s t : State} (h : s.params.ftJ1939Data = t.params.ftJ1939Data) :
    ∃ r : Response, exec i s = .next (s.respond r) ∧ exec i t = .next (t.respond r) := by
  cases i with
  | idDec w => exact ⟨_, exec_idDec s w, exec_idDec t w⟩
  | plTotal n => exact ⟨_, exec_plTotal s n, exec_plTotal t n⟩
  | plTrail n => exact ⟨_, exec_plTrail s n, exec_plTrail t n⟩
  | plSplit n => exact ⟨_, exec_plSplit s n, exec_plSplit t n⟩
  | plPack payload => exact ⟨_, exec_plPack s payload, exec_plPack t payload⟩
  | frParse raw => exact exec_frParse_responds_alike h raw
  | idEnc | plUnpack | frSer | frameCanData | frameCanRemote | frameCanBusError | frameJ1939Data | frameOther =>
    exact finish_responds_alike s t _
  | badOp0 | badOpA | badOpB | badOpC | badOpD | badOpE | badOpF => exact ⟨.badOp, rfl, rfl⟩

/-- Settles O12: both blocks decode the request to one instruction, and that instruction answers alike in both. -/
theorem responseDependsOnRequestAndStrapAlone : Obligations.ResponseDependsOnRequestAndStrapAlone := by
  unfold Obligations.ResponseDependsOnRequestAndStrapAlone
  intro s t rq others others' strap hs ht
  rw [step_request hs, step_request ht]
  exact exec_responds_alike (decodeRequest rq) strap

end Sys2Proof.Machine
end

section
/-! SUPPORT. Little-endian numbers as sums over their bytes (R33): the byte at offset `i` counts with weight `2^(8i)`. -/

namespace Sys2Proof.Machine

/-- A first byte shifts the weight of every byte behind it by 8 bits. -/
theorem leNat_eq_sum (bs : List Byte) :
    leNat bs = ∑ i ∈ Finset.range bs.length, (bs.getD i 0#8).toNat * 2 ^ (8 * i) := by
  induction bs with
  | nil => rfl
  | cons b bs ih =>
    have shift (i : Nat) : ((b :: bs).getD (i + 1) 0#8).toNat * 2 ^ (8 * (i + 1)) =
        256 * ((bs.getD i 0#8).toNat * 2 ^ (8 * i)) := by
      rw [List.getD_cons_succ, Nat.mul_succ, Nat.pow_add]
      ring
    calc leNat (b :: bs)
        = b.toNat + 256 * leNat bs := rfl
      _ = (∑ i ∈ Finset.range bs.length, ((b :: bs).getD (i + 1) 0#8).toNat * 2 ^ (8 * (i + 1))) + b.toNat := by
        simp only [shift, ← Finset.mul_sum, ← ih, Nat.add_comm]
      _ = _ := by simp [Finset.sum_range_succ']

/-- Settles O19: the read is the sum over the bytes of its slice, and byte `i` of the slice is the buffer's byte at
`addr + i`. -/
theorem memReadIsTheLittleEndianSum : Obligations.MemReadIsTheLittleEndianSum := by
  unfold Obligations.MemReadIsTheLittleEndianSum
  intro raw addr n inside
  have length : (slice raw addr (addr + n)).length = n := by rw [length_slice]; omega
  rw [memRead, leNat_eq_sum, length]
  refine Finset.sum_congr rfl fun i hi => ?_
  have hi : i < n := Finset.mem_range.mp hi
  rw [getD_slice _ _ _ _ (by omega)]

end Sys2Proof.Machine
end

section
/-! SUPPORT. The two operations of the identifier codec, in the spec's literal masks and flag (R80, R82), and what an OK
answer of ID.ENC says of its operands. -/

namespace Sys2Proof.Machine

/-! ### The masks and the flag, as the spec writes them -/

theorem idFlag_eq (ext : Bool) : idFlag ext = if ext then 0x20000000#32 else 0#32 := rfl

theorem rawIsExtended_eq_decide (w : BitVec 32) : rawIsExtended w = decide (w &&& 0x20000000#32 ≠ 0#32) := rfl

theorem rawIdentifier_eq (w : BitVec 32) :
    rawIdentifier w = w &&& if rawIsExtended w then 0x1FFFFFFF#32 else 0x000007FF#32 := rfl

theorem rawDropped_eq (w : BitVec 32) :
    rawDropped w = w &&& ~~~((if rawIsExtended w then 0x1FFFFFFF#32 else 0x000007FF#32) ||| 0x20000000#32) := rfl

/-! ### Select codes -/

theorem decodeOp_idDec (x : Operands) : decodeOp 0x1#4 x = .idDec x.rawId := rfl

theorem decodeOp_idEnc (x : Operands) : decodeOp 0x2#4 x = .idEnc x.identifier x.isExtended := rfl

/-! ### Answers -/

/-- ID.ENC answers OK exactly inside its domain, and with one wire identifier only. -/
theorem exec_idEnc_ok_iff {id w : BitVec 32} {ext : Bool} {s : State} :
    exec (.idEnc id ext) s = .next (s.respond (.ok (.idEnc w))) ↔ IdentifierFits id ext ∧ w = id ||| idFlag ext := by
  by_cases fits : IdentifierFits id ext
  · simp [exec_idEnc_of_fits s fits, State.respond_inj, fits, eq_comm]
  · simp [exec_idEnc_of_not_fits s fits, State.respond_inj, fits]

/-- ID.DEC of an encoded identifier gives its two parts back, with no bit left over. -/
theorem exec_idDec_encoded {id : BitVec 32} {ext : Bool} (fits : IdentifierFits id ext) (t : State) :
    exec (.idDec (id ||| idFlag ext)) t = .next (t.respond (.ok (.idDec id ext 0#32))) := by
  obtain ⟨hext, hid, hdropped⟩ := decode_parts_of_fits fits
  rw [exec_idDec, hext, hid, hdropped]

/-- Settles O25: an OK answer of ID.ENC is the encoding of an identifier inside its mask, and that decodes back. -/
theorem encodedIdentifierDecodesBack : Obligations.EncodedIdentifierDecodesBack := by
  unfold Obligations.EncodedIdentifierDecodesBack
  intro id ext wire s t answered
  obtain ⟨fits, rfl⟩ := exec_idEnc_ok_iff.mp answered
  exact exec_idDec_encoded fits t

/-- Settles O22: the result's three parts are R80's, and the identifier lies inside its mask because decoding masks it. -/
theorem idDecResult : Obligations.IdDecResult := by
  unfold Obligations.IdDecResult
  intro w x s
  rw [← rawIsExtended_eq_decide]
  refine ⟨decodeOp_idDec x, ?_, ?_⟩
  · rw [exec_idDec, rawIdentifier_eq, rawDropped_eq]
  · rw [← rawIdentifier_eq]
    exact rawIdentifier_fits w

/-- Settles O24: the two sides of the mask check are the two cases of ID.ENC. -/
theorem idEncResult : Obligations.IdEncResult := by
  unfold Obligations.IdEncResult
  intro id ext x s
  rw [← idFlag_eq]
  refine ⟨decodeOp_idEnc x, fun fits => ⟨?_, ?_⟩, fun notFits => ?_⟩
  · exact exec_idEnc_of_fits s fits
  · exact encoded_canonical fits
  · exact exec_idEnc_of_not_fits s notFits

end Sys2Proof.Machine
end

section
/-! SUPPORT. The three operations of the payload boundary calculator (R90, R92, R94): the unit size is the least multiple
of 8 that holds the bytes beyond the base payload, and what it has over them is the padding. -/

namespace Sys2Proof.Machine

/-! ### Select codes -/

theorem decodeOp_plTotal (x : Operands) : decodeOp 0x3#4 x = .plTotal x.n := rfl

theorem decodeOp_plTrail (x : Operands) : decodeOp 0x4#4 x = .plTrail x.n := rfl

theorem decodeOp_plSplit (x : Operands) : decodeOp 0x5#4 x = .plSplit x.n := rfl

/-! ### The unit size -/

/-- Less than 8 bytes of padding leave no room for a smaller multiple of 8. -/
theorem trail_le_of_multiple {n m : Nat} (multiple : m % 8 = 0) (holds : n - 8 ≤ m) : trail n ≤ m := by
  obtain ⟨-, padding, trailMultiple⟩ := trail_bounds n
  omega

/-- The largest length a port carries, 2047, needs 2040 unit bytes. -/
theorem trail_toNat_le (n : BitVec 11) : trail n.toNat ≤ 2040 :=
  have : n.toNat < 2048 := n.isLt
  trail_le_of_multiple rfl (by omega)

/-- Above 8 bytes the padding completes the last group of 8 (R95). -/
theorem trail_sub_of_gt {n : Nat} (h : 8 < n) : trail n - (n - 8) = (8 - n % 8) % 8 := by
  rw [trail_eq]; omega

/-- Settles O29: the operation's own answer, and `n` has 11 bits. -/
theorem plSplitResult : Obligations.PlSplitResult := by
  unfold Obligations.PlSplitResult
  intro n x s
  have : n.toNat < 2048 := n.isLt
  exact ⟨decodeOp_plSplit x, exec_plSplit s n, by omega⟩

/-- Settles O27: the total is the unit size and 8, so it is least because the unit size is. -/
theorem plTotalIsTheLeastMultiple : Obligations.PlTotalIsTheLeastMultiple := by
  unfold Obligations.PlTotalIsTheLeastMultiple
  intro n x s
  obtain ⟨holds, -, multiple⟩ := trail_bounds n.toNat
  have bound := trail_toNat_le n
  refine ⟨decodeOp_plTotal x, _, exec_plTotal s n, by omega, by omega, fun small => ?_, fun large => ⟨?_, ?_, ?_⟩⟩
  · rw [(trail_eq_zero _).mpr small]
  · omega
  · omega
  · intro m mMultiple mHolds
    have least : trail n.toNat ≤ m - 8 := trail_le_of_multiple (by omega) (by omega)
    omega

/-- Settles O28: PL.TOTAL answers the unit size and 8, PL.TRAIL the unit size. -/
theorem plTrailIsTotalLessEight : Obligations.PlTrailIsTotalLessEight := by
  unfold Obligations.PlTrailIsTotalLessEight
  intro n x s
  obtain ⟨holds, -, multiple⟩ := trail_bounds n.toNat
  exact ⟨decodeOp_plTrail x, _, _, exec_plTotal s n, exec_plTrail s n, rfl, multiple, trail_toNat_le n,
    trail_eq_zero _, holds, fun _ => trail_le_of_multiple⟩

/-- Settles O30: the split is `min n 8` and `n - 8`, and the unit size has the padding over `n - 8`. -/
theorem calculatorIsConsistent : Obligations.CalculatorIsConsistent := by
  unfold Obligations.CalculatorIsConsistent
  intro n s
  obtain ⟨holds, padding, multiple⟩ := trail_bounds n.toNat
  refine ⟨_, _, _, exec_plSplit s n, exec_plTrail s n, by omega, by omega, holds, by omega, multiple, by omega,
    trail_sub_of_gt, fun small => ?_⟩
  rw [(trail_eq_zero _).mpr small, Nat.zero_sub]

end Sys2Proof.Machine
end

section
/-! SUPPORT. What a frame-type row completes with when its real unit bytes are there (R110, closing note), in the spec's
literal masks and flag. -/

namespace Sys2Proof.Machine

/-- A row's delivery with its real unit bytes present is one OK response, the frame decoded under the mask that the
identifier's own flag selects (R80). -/
theorem finish_deliver_of_le {rtr err : Bool} {n : Nat} {h : HeaderFields} {rest : List Byte} (s : State)
    (present : n - 8 ≤ rest.length) :
    s.finish ((deliver rtr err n h rest).map .frParse) = s.respond (.ok (.frParse {
      timestamp := h.timestamp
      identifier := h.identifier &&& if rawIsExtended h.identifier then 0x1FFFFFFF#32 else 0x000007FF#32
      isExtended := rawIsExtended h.identifier
      isRemoteFrame := rtr, isErrorFrame := err
      payload := (h.basePayload.toList ++ rest).take n })) := by
  rw [deliver_of_le present, rawIdentifier_eq, Except.map, State.finish_ok]

/-- Settles O40: each of the three rows delivers under its own two flags, at the length `payload_length_low`. -/
theorem frameRowsDeliverTheirFlags : Obligations.FrameRowsDeliverTheirFlags := by
  unfold Obligations.FrameRowsDeliverTheirFlags
  intro h rest s n ext frame present
  refine ⟨?_, ?_, ?_⟩
  · rw [exec_frameCanData, finish_deliver_of_le s present, rawIsExtended_eq_decide]
  · rw [exec_frameCanRemote, finish_deliver_of_le s present, rawIsExtended_eq_decide]
  · rw [exec_frameCanBusError, finish_deliver_of_le s present, rawIsExtended_eq_decide]

end Sys2Proof.Machine
end

section
/-! SUPPORT. The encoder against the decoder (R138, R141): what FR.PARSE reads at each place of the bytes FR.SER wrote. A
frame type FR.SER writes is never FT_J1939_DATA, so the length byte alone gives the payload length back. -/

namespace Sys2Proof.Machine

/-! ### The timestamp -/

theorem exec_frSer (s : State) (f : LogicalFrame) :
    exec (.frSer f) s = .next (s.finish ((serialize f).map .frSer)) := rfl

/-- The header carries `TS_WRITTEN` in place of the frame's timestamp (R135). -/
theorem serHeader_withTimestamp (f : LogicalFrame) (ts : BitVec 64) (wireId : BitVec 32) :
    serHeader { f with timestamp := ts } wireId = serHeader f wireId := rfl

theorem serialize_withTimestamp (f : LogicalFrame) (ts : BitVec 64) :
    serialize { f with timestamp := ts } = serialize f := by
  simp only [serialize, serHeader_withTimestamp]

/-- Settles O45: of a frame the encoder reads everything but the timestamp. -/
theorem frSerDoesNotReadTheTimestamp : Obligations.FrSerDoesNotReadTheTimestamp := by
  unfold Obligations.FrSerDoesNotReadTheTimestamp
  intro f ts s
  rw [exec_frSer, exec_frSer, serialize_withTimestamp]

/-! ### The frame type written, read back -/

/-- A legal strap puts FT_J1939_DATA above the three types FR.SER writes (R8). -/
theorem selectFrameType_ne_ftJ1939Data {p : Params} (legal : p.Legal) (isError isRemote : Bool) :
    selectFrameType isError isRemote ≠ p.ftJ1939Data := by
  have small : (selectFrameType isError isRemote).toNat ≤ 2 := by revert isError isRemote; decide
  intro same
  have above := legal.1
  rw [← same] at above
  omega

theorem isErrorType_selectFrameType (isError isRemote : Bool) :
    isErrorType (selectFrameType isError isRemote) = isError := by
  revert isError isRemote; decide

/-- The error flag takes precedence over the remote flag (R134). -/
theorem isRemoteType_selectFrameType (isError isRemote : Bool) :
    isRemoteType (selectFrameType isError isRemote) = (!isError && isRemote) := by
  revert isError isRemote; decide

/-! ### The other places, read back -/

/-- A length of at most 255 comes back from its byte, whichever of the three types was written. -/
theorem frameLength_serializedBytes {p : Params} (legal : p.Legal) {f : LogicalFrame} (short : f.payload.length ≤ 255) :
    frameLength p (serializedBytes f) = f.payload.length := by
  rw [frameLength_of_legal legal, getD_wireBytes_frameType, if_neg (selectFrameType_ne_ftJ1939Data legal _ _),
    getD_wireBytes_payloadLengthLow, BitVec.toNat_ofNat]
  omega

theorem readHeader_serializedBytes_timestamp (f : LogicalFrame) :
    (readHeader (serializedBytes f)).timestamp = 0#64 := by
  rw [readHeader_timestamp, memRead_wireBytes_timestamp _ _ _ _ _ _ _ (by decide)]

theorem readHeader_serializedBytes_identifier (f : LogicalFrame) :
    (readHeader (serializedBytes f)).identifier = f.identifier ||| idFlag f.isExtended := by
  rw [readHeader_identifier, memRead_wireBytes_identifier _ _ _ _ _ _ _ (BitVec.isLt _), BitVec.ofNat_toNat,
    BitVec.setWidth_eq]

theorem readHeader_serializedBytes_frameType (f : LogicalFrame) :
    (readHeader (serializedBytes f)).frameType = selectFrameType f.isErrorFrame f.isRemoteFrame := by
  rw [readHeader_frameType, getD_wireBytes_frameType]

theorem take_drop_serializedBytes (f : LogicalFrame) :
    ((serializedBytes f).drop 16).take f.payload.length = f.payload := by
  rw [drop_wireBytes, List.take_left]

/-- FR.PARSE of what FR.SER wrote (R141): every field back but the timestamp, and the remote flag if the error flag is
clear. -/
theorem parse_serializedBytes {p : Params} (legal : p.Legal) {f : LogicalFrame} (short : f.payload.length ≤ 255)
    (fits : IdentifierFits f.identifier f.isExtended) :
    parse p (serializedBytes f) =
      .ok { f with timestamp := 0#64, isRemoteFrame := !f.isErrorFrame && f.isRemoteFrame } := by
  have length : (serializedBytes f).length = 24 + trail f.payload.length := by
    rw [length_wireBytes, length_paddedPayload]; omega
  have unit : f.payload.length - 8 ≤ trail f.payload.length := (trail_bounds _).1
  have present : 24 + (frameLength p (serializedBytes f) - 8) ≤ (serializedBytes f).length := by
    rw [frameLength_serializedBytes legal short]; omega
  obtain ⟨extended, identifier, -⟩ := decode_parts_of_fits fits
  rw [parse_of_present (by omega) present, frameLength_serializedBytes legal short, take_drop_serializedBytes, frameOf,
    readHeader_serializedBytes_timestamp, readHeader_serializedBytes_identifier, readHeader_serializedBytes_frameType,
    extended, identifier, isErrorType_selectFrameType, isRemoteType_selectFrameType]

/-- Settles O46: without both flags set the remote flag comes back as it was; with both set it comes back clear. -/
theorem serializedFrameParsesBack : Obligations.SerializedFrameParsesBack := by
  unfold Obligations.SerializedFrameParsesBack
  intro f s t legal short fits
  have parsed := exec_frParse_of_ok t (parse_serializedBytes legal short fits)
  refine ⟨serializedBytes f, exec_frSer_of_ok s (serialize_eq_ok_iff.mpr ⟨short, fits, rfl⟩), ?_, ?_⟩
  · rintro ⟨-, -, notBoth⟩
    have remote : (!f.isErrorFrame && f.isRemoteFrame) = f.isRemoteFrame := by
      revert notBoth; cases f.isErrorFrame <;> simp
    rwa [remote] at parsed
  · intro _ error
    have remote : (!f.isErrorFrame && f.isRemoteFrame) = false := by rw [error]; rfl
    rwa [remote] at parsed

end Sys2Proof.Machine
end

section
/-! SUPPORT. Decoding and encoding against each other (R51, R63, R70): the select codes on their own operand lines, the
frame-type rows by their type byte, and the header's fields as its bytes put side by side. -/

namespace Sys2Proof

open Machine

/-! ### The row of a type byte -/

section
variable {p : Params} {t : Byte} (h : HeaderFields) (rest : List Byte)

theorem rowOf_of_canData (row : classify p t = .canData) : rowOf p t h rest = .frameCanData h rest := by
  rw [rowOf, row]

theorem rowOf_of_canRemote (row : classify p t = .canRemote) : rowOf p t h rest = .frameCanRemote h rest := by
  rw [rowOf, row]

theorem rowOf_of_canBusError (row : classify p t = .canBusError) : rowOf p t h rest = .frameCanBusError h rest := by
  rw [rowOf, row]

theorem rowOf_of_j1939Data (row : classify p t = .j1939Data) : rowOf p t h rest = .frameJ1939Data h rest := by
  rw [rowOf, row]

theorem rowOf_of_other (row : classify p t = .other) : rowOf p t h rest = .frameOther t h rest := by
  rw [rowOf, row]

end

/-- A buffer decodes to a row exactly when it has a header, and then to the row of its type byte. -/
theorem decodeWire_ok_iff {p : Params} {raw : List Byte} {i : Instr} :
    decodeWire p raw = .ok i ↔
      24 ≤ raw.length ∧ rowOf p (readHeader raw).frameType (readHeader raw).toHeaderFields (raw.drop 24) = i := by
  rcases Nat.lt_or_ge raw.length 24 with short | header
  · simp [decodeWire_of_lt short, Nat.not_le.mpr short]
  · simp [decodeWire_of_le header, header]

/-! ### Decode after encode -/

theorem decode_encodeFrame {p : Params} {t : Byte} {h : HeaderFields} {rest : List Byte} {i : Instr}
    (row : rowOf p t h rest = i) : decode p (encodeFrame t h rest) = .ok i := by
  rw [← row]
  exact decodeWire_writeHeader p t h rest

/-- An operation's encoding is a request that decodes to it. -/
theorem decode_encode_of_port {p : Params} {i : Instr} {rq : Request} (port : encode p i = .port rq)
    (shape : Laws.EncodeShape.Statement i) : decode p (encode p i) = .ok i := by
  have decodes := shape p
  rw [port] at decodes ⊢
  exact congrArg Except.ok decodes

/-- Settles O4: an operation is encoded with its own select code and operand lines, a frame-type row as a header whose
type byte the frame-type map reads back; a well-formed default row has a type byte the map gives no other row. -/
theorem decodeInvertsEncode : Obligations.DecodeInvertsEncode := by
  unfold Obligations.DecodeInvertsEncode
  intro p i legal wf
  cases i with
  | idDec w => exact decode_encode_of_port rfl (Laws.EncodeShape.idDec w)
  | idEnc id ext => exact decode_encode_of_port rfl (Laws.EncodeShape.idEnc id ext)
  | plTotal n => exact decode_encode_of_port rfl (Laws.EncodeShape.plTotal n)
  | plTrail n => exact decode_encode_of_port rfl (Laws.EncodeShape.plTrail n)
  | plSplit n => exact decode_encode_of_port rfl (Laws.EncodeShape.plSplit n)
  | plPack payload => exact decode_encode_of_port rfl (Laws.EncodeShape.plPack payload)
  | plUnpack base n unit => exact decode_encode_of_port rfl (Laws.EncodeShape.plUnpack base n unit)
  | frParse raw => exact decode_encode_of_port rfl (Laws.EncodeShape.frParse raw)
  | frSer f => exact decode_encode_of_port rfl (Laws.EncodeShape.frSer f)
  | badOp0 | badOpA | badOpB | badOpC | badOpD | badOpE | badOpF => rfl
  | frameCanData h rest => exact decode_encodeFrame (rowOf_of_canData h rest (classify_zero p))
  | frameCanRemote h rest => exact decode_encodeFrame (rowOf_of_canRemote h rest (classify_one p))
  | frameCanBusError h rest => exact decode_encodeFrame (rowOf_of_canBusError h rest (classify_two p))
  | frameJ1939Data h rest => exact decode_encodeFrame (rowOf_of_j1939Data h rest (classify_ftJ1939Data legal))
  | frameOther t h rest =>
    obtain ⟨⟨above, notJ1939⟩, -⟩ : (2 < t.toNat ∧ t ≠ p.ftJ1939Data) ∧ unitFits p rest = true := by
      simpa only [Instr.wellFormed, isOtherType, Bool.and_eq_true, decide_eq_true_eq] using wf
    exact decode_encodeFrame (rowOf_of_other h rest (classify_other above notJ1939))

/-! ### Encode after decode -/

/-- The row a type byte selects is encoded with that type byte again. -/
theorem encode_rowOf (p : Params) (t : Byte) (h : HeaderFields) (rest : List Byte) :
    encode p (rowOf p t h rest) = encodeFrame t h rest := by
  rcases classify_cases p t with ⟨rfl, row⟩ | ⟨rfl, row⟩ | ⟨rfl, row⟩ | ⟨-, -, -, rfl, row⟩ | ⟨-, -, -, -, row⟩
  · rw [rowOf_of_canData h rest row]; rfl
  · rw [rowOf_of_canRemote h rest row]; rfl
  · rw [rowOf_of_canBusError h rest row]; rfl
  · rw [rowOf_of_j1939Data h rest row]; rfl
  · rw [rowOf_of_other h rest row]; rfl

/-- A buffer is its header written again and what follows it. -/
theorem writeHeader_append_drop {raw : List Byte} (header : 24 ≤ raw.length) :
    writeHeader (readHeader raw) ++ raw.drop 24 = raw := by
  rw [writeHeader_readHeader raw header, List.take_append_drop]

/-- Settles O5: the row keeps the type byte, the other header fields and all bytes after them. -/
theorem wireDecodingLosesNothing : Obligations.WireDecodingLosesNothing := by
  unfold Obligations.WireDecodingLosesNothing
  intro p raw i decodes
  obtain ⟨header, rfl⟩ := decodeWire_ok_iff.mp decodes
  rw [encode_rowOf]
  exact congrArg Encoded.wire (writeHeader_append_drop header)

/-! ### Header fields as bytes side by side -/

/-- The first byte of a little-endian number is its low 8 bits. -/
theorem ofNat_leNat_cons (w : Nat) (b : Byte) (bs : List Byte) :
    BitVec.ofNat (w + 8) (leNat (b :: bs)) = BitVec.ofNat w (leNat bs) ++ b := by
  have low : b.toNat < 2 ^ 8 := b.isLt
  have quotient : (b.toNat + 256 * leNat bs) / 2 ^ 8 = leNat bs := by omega
  have remainder : (b.toNat + 256 * leNat bs) % 2 ^ 8 = b.toNat := by omega
  apply BitVec.eq_of_toNat_eq
  rw [BitVec.toNat_append, ← Nat.shiftLeft_add_eq_or_of_lt low, Nat.shiftLeft_eq, BitVec.toNat_ofNat,
    BitVec.toNat_ofNat, leNat, Nat.pow_add, Nat.mul_comm (2 ^ w), Nat.mod_mul, quotient, remainder]
  omega

theorem ofNat_leNat_singleton (b : Byte) : BitVec.ofNat 8 (leNat [b]) = b := by
  simp [leNat]

theorem ofNat_leNat_four (b0 b1 b2 b3 : Byte) : BitVec.ofNat 32 (leNat [b0, b1, b2, b3]) = b3 ++ b2 ++ b1 ++ b0 := by
  rw [ofNat_leNat_cons 24, ofNat_leNat_cons 16, ofNat_leNat_cons 8, ofNat_leNat_singleton]

theorem ofNat_leNat_eight (b0 b1 b2 b3 b4 b5 b6 b7 : Byte) :
    BitVec.ofNat 64 (leNat [b0, b1, b2, b3, b4, b5, b6, b7]) = b7 ++ b6 ++ b5 ++ b4 ++ b3 ++ b2 ++ b1 ++ b0 := by
  rw [ofNat_leNat_cons 56, ofNat_leNat_cons 48, ofNat_leNat_cons 40, ofNat_leNat_cons 32, ofNat_leNat_four]

/-- Settles O3: the two wide fields are their bytes side by side, the others one byte each; the map reads byte 12. -/
theorem headerFieldsAtTheirOffsets : Obligations.HeaderFieldsAtTheirOffsets := by
  unfold Obligations.HeaderFieldsAtTheirOffsets
  intro p b0 b1 b2 b3 b4 b5 b6 b7 b8 b9 b10 b11 b12 b13 b14 b15 b16 b17 b18 b19 b20 b21 b22 b23 rest legal raw h
  have header : 24 ≤ raw.length := by simp [raw]
  have fields : (readHeader raw).toHeaderFields = h := by
    have base : (readHeader raw).basePayload = h.basePayload :=
      Vector.toList_inj.mp (toList_readHeader_basePayload raw header)
    simp only [readHeader, memRead_one, h, HeaderFields.mk.injEq] at base ⊢
    refine ⟨ofNat_leNat_eight b0 b1 b2 b3 b4 b5 b6 b7, ofNat_leNat_four b8 b9 b10 b11, ?_, ?_, ?_, base⟩ <;> simp [raw]
  have decodes : decode p (.wire raw) = .ok (rowOf p b12 h rest) := by
    rw [decode, decodeWire_of_le header, readHeader_frameType, fields]; rfl
  rw [decodes]
  refine ⟨?_, ?_, ?_, ?_, ?_⟩
  · rintro rfl; rw [rowOf_of_canData h rest (classify_zero p)]
  · rintro rfl; rw [rowOf_of_canRemote h rest (classify_one p)]
  · rintro rfl; rw [rowOf_of_canBusError h rest (classify_two p)]
  · rintro rfl; rw [rowOf_of_j1939Data h rest (classify_ftJ1939Data legal)]
  · rintro ⟨above, notJ1939⟩; rw [rowOf_of_other h rest (classify_other above notJ1939)]

/-! ### Select codes -/

/-- Settles O1: the decoder's own table, one code after the other. -/
theorem selectCodesNameTheirOperations : Obligations.SelectCodesNameTheirOperations := by
  unfold Obligations.SelectCodesNameTheirOperations
  intro x
  refine ⟨?_, ?_, ?_, ?_, ?_, ?_, ?_, ?_, ?_, ?_, ?_, ?_, ?_, ?_, ?_, ?_⟩ <;> rfl

/-- Settles O2: the two codes and the two headers are closed words, which the decoder evaluates; neither header asks for
the value of FT_J1939_DATA. -/
theorem writtenOutWordsDecode : Obligations.WrittenOutWordsDecode := by
  unfold Obligations.WrittenOutWordsDecode
  refine ⟨?_, ?_, ?_, ?_⟩ <;> decide

/-- Settles O6: each code reads the lines the agreement gives it, and an unassigned code reads none. -/
theorem requestReadsOnlyItsOwnOperands : Obligations.RequestReadsOnlyItsOwnOperands := by
  unfold Obligations.RequestReadsOnlyItsOwnOperands
  rintro op x y ⟨rawId, identifier, n, payload, unpack, raw, frame⟩
  rcases selectCode_cases op with
    rfl | rfl | rfl | rfl | rfl | rfl | rfl | rfl | rfl | rfl | rfl | rfl | rfl | rfl | rfl | rfl
  · rfl
  · exact congrArg Instr.idDec (rawId rfl)
  · exact congrArg₂ Instr.idEnc (identifier rfl).1 (identifier rfl).2
  · exact congrArg Instr.plTotal (n (.inl rfl))
  · exact congrArg Instr.plTrail (n (.inr (.inl rfl)))
  · exact congrArg Instr.plSplit (n (.inr (.inr rfl)))
  · exact congrArg Instr.plPack (payload rfl)
  · obtain ⟨base, n, unit⟩ := unpack rfl
    change Instr.plUnpack x.basePayload x.n x.unit = .plUnpack y.basePayload y.n y.unit
    rw [base, n, unit]
  · exact congrArg Instr.frParse (raw rfl)
  · exact congrArg Instr.frSer (frame rfl)
  all_goals rfl

end Sys2Proof
end

section
/-! SUPPORT. Output writes offset by offset (R34), and the wire identifier as the bytes at offsets 8 to 11 (R46). -/

namespace Sys2Proof.Machine

/-! ### Output writes -/

/-- Reading where a number has just been written gives its low `n` bytes. -/
theorem memRead_memWrite_same {out : List Byte} {addr : Nat} (n v : Nat) (inside : addr ≤ out.length) :
    memRead (memWrite out addr n v) addr n = v % 256 ^ n := by
  have read := memRead_append_leBytes (out.take addr) (out.drop (addr + n)) n v
  rwa [List.length_take, Nat.min_eq_left inside, ← List.append_assoc] at read

theorem shiftRight_eight_mul (v i : Nat) : v >>> (8 * i) = v / 256 ^ i := by
  rw [Nat.shiftRight_eq_div_pow, Nat.pow_mul]

/-- Settles O20: the write's three parts, each at its offsets; a value that fits its bytes reads back whole. -/
theorem memWritePutsEachByteAtItsOffset : Obligations.MemWritePutsEachByteAtItsOffset := by
  unfold Obligations.MemWritePutsEachByteAtItsOffset
  intro out addr n v inside fits
  refine ⟨fun i hi => ?_, fun k outside => ?_, ?_⟩
  · rw [byteAt, getD_memWrite _ _ _ _ _ inside, if_pos (by omega), Nat.add_sub_cancel_left, shiftRight_eight_mul]
  · rw [byteAt, getD_memWrite _ _ _ _ _ inside, if_neg (by omega)]
  · rw [Nat.pow_mul] at fits
    rw [memRead_memWrite_same n v inside, Nat.mod_eq_of_lt fits]

/-! ### The wire identifier -/

/-- The four bytes of the wire identifier, the highest offset most significant (R51). -/
theorem ofNat_memRead_identifier {raw : List Byte} (long : 12 ≤ raw.length) :
    BitVec.ofNat 32 (memRead raw 8 4) = byteAt raw 11 ++ byteAt raw 10 ++ byteAt raw 9 ++ byteAt raw 8 := by
  have bytes : slice raw 8 12 = [byteAt raw 8, byteAt raw 9, byteAt raw 10, byteAt raw 11] := by
    apply eq_of_getD
    · rw [length_slice]; simp; omega
    · intro k hk
      have hk : k < 4 := by rw [length_slice] at hk; omega
      rw [getD_slice _ _ _ _ hk]
      interval_cases k <;> rfl
  rw [memRead, bytes, ofNat_leNat_four]

/-- Mask 0x20 of a byte is its bit 5. -/
theorem and_flagMask_ne_zero_iff (b : Byte) : b &&& 0x20#8 ≠ 0#8 ↔ b.getLsbD 5 = true := by
  revert b; decide

/-- Settles O21: the identifier is four bytes side by side, so each of its bits is a bit of the byte it lies in. -/
theorem wireIdentifierByteView : Obligations.WireIdentifierByteView := by
  unfold Obligations.WireIdentifierByteView
  intro raw w long value
  rw [ofNat_memRead_identifier long] at value
  generalize byteAt raw 8 = b8, byteAt raw 9 = b9, byteAt raw 10 = b10, byteAt raw 11 = b11 at value ⊢
  have bit (k : Nat) : w.getLsbD k = (b11 ++ b10 ++ b9 ++ b8).getLsbD k := by rw [value]
  simp only [BitVec.getLsbD_append] at bit
  refine ⟨?_, ?_, ?_, ?_, ?_, bit 31, bit 30, ?_⟩
  · rw [value]
    exact BitVec.extractLsb'_append_eq_right.symm
  · rw [value, BitVec.extractLsb'_append_eq_of_le (by decide)]
    exact BitVec.extractLsb'_append_eq_right.symm
  · rw [value, BitVec.extractLsb'_append_eq_of_le (by decide), BitVec.extractLsb'_append_eq_of_le (by decide)]
    exact BitVec.extractLsb'_append_eq_right.symm
  · rw [value, BitVec.extractLsb'_append_eq_of_le (by decide), BitVec.extractLsb'_append_eq_of_le (by decide)]
    exact BitVec.extractLsb'_append_eq_left.symm
  · rw [and_flagMask_ne_zero_iff, bit]; rfl
  · apply BitVec.eq_of_getLsbD_eq
    intro k hk
    rw [BitVec.getLsbD_extractLsb', bit, BitVec.getLsbD_append, BitVec.getLsbD_extractLsb']
    by_cases low : k < 8
    · simp [low, hk]
    · have high : k - 8 < 3 := by omega
      simp [low, high, hk, show k - 8 < 8 by omega]

end Sys2Proof.Machine
end

section
/-! SUPPORT. What decoding an identifier drops, bit by bit (R81), and what encoding then gives back (R84). -/

namespace Sys2Proof.Machine

/-! ### The three parts of a wire identifier -/

theorem rawIdentifier_and_idFlag (w : BitVec 32) : rawIdentifier w &&& idFlag (rawIsExtended w) = 0#32 := by
  rw [and_eq_zero_iff]
  intro k _ inIdentifier
  have := idBits_le (w.getLsbD 29)
  rw [getLsbD_rawIdentifier, Bool.and_eq_true, decide_eq_true_eq] at inIdentifier
  rw [getLsbD_idFlag, decide_eq_false (by omega), Bool.and_false]

theorem rawIdentifier_and_rawDropped (w : BitVec 32) : rawIdentifier w &&& rawDropped w = 0#32 := by
  rw [and_eq_zero_iff]
  intro k hk inIdentifier
  rw [getLsbD_rawIdentifier, Bool.and_eq_true] at inIdentifier
  rw [getLsbD_rawDropped w k hk, inIdentifier.2, Bool.true_or, Bool.not_true, Bool.and_false]

theorem rawDropped_and_idFlag (w : BitVec 32) : rawDropped w &&& idFlag (rawIsExtended w) = 0#32 := by
  rw [and_eq_zero_iff]
  intro k hk inDropped
  rw [getLsbD_idFlag]
  by_cases flag : k = 29
  · rw [getLsbD_rawDropped w k hk, decide_eq_true flag, Bool.or_true, Bool.not_true, Bool.and_false] at inDropped
    contradiction
  · rw [decide_eq_false flag, Bool.and_false]

/-- The bits above the identifier other than the flag: 31 and 30, and 28 to 11 of a standard identifier. -/
theorem above_idBits_iff (ext : Bool) {k : Nat} (hk : k < 32) :
    ¬(k < idBits ext ∨ k = 29) ↔ k = 31 ∨ k = 30 ∨ ext = false ∧ 11 ≤ k ∧ k ≤ 28 := by
  cases ext
  · rw [idBits_false]; simp; omega
  · rw [idBits_true]; simp; omega

/-- Settles O23: the dropped bits are those above the identifier other than the flag. -/
theorem idDecDropsExactlyTheOtherBits : Obligations.IdDecDropsExactlyTheOtherBits := by
  unfold Obligations.IdDecDropsExactlyTheOtherBits
  intro w s
  refine ⟨_, _, _, exec_idDec s w, fun k hk => ?_, raw_parts w, rawIdentifier_and_idFlag w,
    rawIdentifier_and_rawDropped w, rawDropped_and_idFlag w⟩
  have above := above_idBits_iff (w.getLsbD 29) hk
  rw [getLsbD_rawDropped w k hk, Bool.eq_iff_iff]
  simpa [or_assoc] using fun _ => above

/-! ### Decode, then encode -/

/-- What encoding makes of a decoded identifier: the wire identifier without the dropped bits. -/
theorem rawIdentifier_or_idFlag (w : BitVec 32) :
    rawIdentifier w ||| idFlag (rawIsExtended w) = w &&& ~~~rawDropped w := by
  apply BitVec.eq_of_getLsbD_eq
  intro k hk
  rw [BitVec.getLsbD_or, BitVec.getLsbD_and, BitVec.getLsbD_not, getLsbD_rawIdentifier, getLsbD_idFlag,
    getLsbD_rawDropped w k hk, rawIsExtended_eq]
  by_cases flag : k = 29
  · subst flag
    cases w.getLsbD 29 <;> simp
  · cases w.getLsbD k <;> simp [flag, hk]

/-- Clearing the dropped bits changes nothing exactly when there are none, since they are bits of the word. -/
theorem clear_rawDropped_eq_self_iff (w : BitVec 32) : w &&& ~~~rawDropped w = w ↔ rawDropped w = 0#32 := by
  constructor
  · intro same
    calc rawDropped w
        = w &&& rawDropped w := by rw [rawDropped, ← BitVec.and_assoc, BitVec.and_self]
      _ = (w &&& ~~~rawDropped w) &&& rawDropped w := by rw [same]
      _ = 0#32 := by
        rw [BitVec.and_assoc, BitVec.and_comm (~~~rawDropped w), BitVec.and_not_self]
        exact BitVec.and_zero
  · intro nothing
    rw [nothing, BitVec.not_zero, BitVec.and_allOnes]

/-- Settles O26: a decoded identifier lies inside its mask, and encoding puts the flag beside it again. -/
theorem decodedIdentifierEncodesToItsCanonicalForm : Obligations.DecodedIdentifierEncodesToItsCanonicalForm := by
  unfold Obligations.DecodedIdentifierEncodesToItsCanonicalForm
  intro w s t
  refine ⟨_, _, _, exec_idDec s w, ?_, clear_rawDropped_eq_self_iff w⟩
  rw [exec_idEnc_of_fits t (rawIdentifier_fits w), rawIdentifier_or_idFlag]

end Sys2Proof.Machine
end

section
/-! SUPPORT. The packer and the unpacker byte by byte (R98, R100), and each as the other's inverse (R101): a byte
sequence is the padded form of its first `n` bytes exactly when it has that form's length and is zero from offset `n` on. -/

namespace Sys2Proof.Machine

/-! ### Select codes -/

theorem decodeOp_plPack (x : Operands) : decodeOp 0x6#4 x = .plPack x.payload := rfl

theorem decodeOp_plUnpack (x : Operands) : decodeOp 0x7#4 x = .plUnpack x.basePayload x.n x.unit := rfl

/-! ### Pseudo-operations -/

theorem padLen_eq (n : Nat) : padLen n = trail n - (n - 8) := by rw [padLen, unitLen_eq]

/-- Settles O31: the nominal length is 24 and the unit size, the padding less than 8. -/
theorem pseudoOperationsExpand : Obligations.PseudoOperationsExpand := by
  unfold Obligations.PseudoOperationsExpand
  intro n s
  obtain ⟨-, padding, -⟩ := trail_bounds n.toNat
  refine ⟨_, _, _, _, exec_plTotal s n, exec_plTrail s n, exec_plSplit s n, rfl, ?_, padLen_eq _, ?_⟩
  · rw [frLen]; omega
  · rw [padLen_eq]; omega

/-! ### Bytes -/

theorem getD_take_of_lt {l : List Byte} {n k : Nat} (h : k < n) : (l.take n).getD k 0#8 = l.getD k 0#8 := by
  simp [List.getD_eq_getElem?_getD, h]

/-- The bytes of a base payload and a unit, one after the other. -/
theorem getD_base_append (base : BasePayload) (unit : List Byte) (k : Nat) :
    (base.toList ++ unit).getD k 0#8 = if k < 8 then base.toList.getD k 0#8 else unit.getD (k - 8) 0#8 := by
  split
  · rw [List.getD_append _ _ _ _ (by simpa)]
  · rw [List.getD_append_right _ _ _ _ (by simp; omega), Vector.length_toList]

/-- Byte `k` of the packed base payload and unit: the payload's, or padding. -/
theorem getD_packed (payload : List Byte) (k : Nat) :
    ((packBase payload).toList ++ packUnit payload).getD k 0#8 =
      if k < payload.length then payload.getD k 0#8 else 0#8 := by
  rw [pack_append, getD_paddedPayload]

/-- Settles O32: base payload and unit together are the payload and its padding, cut at offset 8. -/
theorem plPackByteByByte : Obligations.PlPackByteByByte := by
  unfold Obligations.PlPackByteByByte
  intro payload x s
  refine ⟨decodeOp_plPack x, _, _, exec_plPack s payload, fun i hi => ?_, length_packUnit payload, fun j _ => ?_⟩
  · rw [← getD_packed, getD_base_append, if_pos hi]
  · rw [← getD_packed, getD_base_append, if_neg (by omega), Nat.add_sub_cancel_left]

/-- Settles O33: with its real unit bytes the payload is the first `n` bytes of base payload and unit. -/
theorem plUnpackByteByByte : Obligations.PlUnpackByteByByte := by
  unfold Obligations.PlUnpackByteByByte
  intro base n unit x s
  refine ⟨decodeOp_plUnpack x, fun present => ?_, exec_plUnpack_of_lt s⟩
  refine ⟨_, exec_plUnpack_of_le s present, length_unpacked present, fun i hi => ?_⟩
  rw [byteAt, getD_take_of_lt hi, getD_base_append]

/-! ### Unpack after pack -/

/-- A unit that begins with the packed unit's real bytes has them all, and unpacks to the packed payload. -/
theorem take_packed {payload other : List Byte}
    (same : other.take (payload.length - 8) = (packUnit payload).take (payload.length - 8)) :
    payload.length - 8 ≤ other.length ∧ ((packBase payload).toList ++ other).take payload.length = payload := by
  have unit : payload.length - 8 ≤ (packUnit payload).length := by
    rw [length_packUnit]; exact (trail_bounds _).1
  constructor
  · have lengths := congrArg List.length same
    rw [List.length_take, List.length_take] at lengths
    omega
  · calc ((packBase payload).toList ++ other).take payload.length
        = ((packBase payload).toList ++ packUnit payload).take payload.length := by
          rw [List.take_append, List.take_append, Vector.length_toList, same]
      _ = payload := by rw [pack_append, List.take_left]

/-- PL.UNPACK of a packed base payload and such a unit. -/
theorem exec_plUnpack_packed (t : State) {payload other : List Byte} (short : payload.length ≤ 2047)
    (same : other.take (payload.length - 8) = (packUnit payload).take (payload.length - 8)) :
    exec (.plUnpack (packBase payload) (BitVec.ofNat 11 payload.length) other) t =
      .next (t.respond (.ok (.plUnpack payload))) := by
  obtain ⟨present, unpacked⟩ := take_packed same
  have length : (BitVec.ofNat 11 payload.length).toNat = payload.length := by
    rw [BitVec.toNat_ofNat]; omega
  rw [exec_plUnpack_of_le t (by rwa [length]), length, unpacked]

/-! ### Pack after unpack -/

/-- PL.UNPACK answers OK exactly with its real unit bytes there, and with one payload only. -/
theorem exec_plUnpack_ok_iff {base : BasePayload} {n : BitVec 11} {unit payload : List Byte} {s : State} :
    exec (.plUnpack base n unit) s = .next (s.respond (.ok (.plUnpack payload))) ↔
      n.toNat - 8 ≤ unit.length ∧ (base.toList ++ unit).take n.toNat = payload := by
  rcases Nat.lt_or_ge unit.length (n.toNat - 8) with missing | present
  · simp [exec_plUnpack_of_lt s missing, State.respond_inj, Nat.not_le.mpr missing]
  · simp [exec_plUnpack_of_le s present, State.respond_inj, present]

/-- PL.PACK answers with a base payload and a unit exactly when they make up the padded payload. -/
theorem exec_plPack_iff {payload unit : List Byte} {base : BasePayload} {t : State} :
    exec (.plPack payload) t = .next (t.respond (.ok (.plPack base unit))) ↔
      paddedPayload payload = base.toList ++ unit := by
  have parts : paddedPayload payload = base.toList ++ unit ↔ packBase payload = base ∧ packUnit payload = unit := by
    constructor
    · intro same
      rw [paddedPayload, ← pack_append] at same
      obtain ⟨sameBase, sameUnit⟩ := List.append_inj same (by simp)
      exact ⟨Vector.toList_inj.mp sameBase, sameUnit⟩
    · rintro ⟨rfl, rfl⟩
      exact (pack_append payload).symm
  rw [parts, exec_plPack]
  simp [State.respond_inj]

/-- A byte sequence is the padded form of its first `n` bytes exactly when it has that form's length and is zero from
offset `n` on. -/
theorem paddedPayload_take_eq_self_iff {bytes : List Byte} {n : Nat} (long : n ≤ bytes.length) :
    paddedPayload (bytes.take n) = bytes ↔
      bytes.length = 8 + trail n ∧ ∀ k, n ≤ k → k < bytes.length → bytes.getD k 0#8 = 0#8 := by
  have length : (bytes.take n).length = n := by rw [List.length_take, Nat.min_eq_left long]
  have byte (k : Nat) : (paddedPayload (bytes.take n)).getD k 0#8 = if k < n then bytes.getD k 0#8 else 0#8 := by
    rw [getD_paddedPayload, length]
    split
    · exact getD_take_of_lt ‹_›
    · rfl
  constructor
  · intro same
    refine ⟨?_, fun k above _ => ?_⟩
    · rw [← same, length_paddedPayload, length]
    · rw [← same, byte, if_neg (by omega)]
  · rintro ⟨padded, zero⟩
    apply eq_of_getD
    · rw [length_paddedPayload, length, padded]
    · intro k hk
      rw [length_paddedPayload, length, ← padded] at hk
      rw [byte]
      split
      · rfl
      · exact (zero k (by omega) hk).symm

/-- Settles O34: unpacking takes the payload from the front of its padded form; what was unpacked has the operands as
its padded form exactly when they are zero behind it and of the form's length. -/
theorem packAndUnpackAreInverse : Obligations.PackAndUnpackAreInverse := by
  unfold Obligations.PackAndUnpackAreInverse
  refine ⟨fun payload s t short => ?_, fun base n unit payload s t unpacked => ?_⟩
  · exact ⟨_, _, exec_plPack s payload, exec_plUnpack_packed t short rfl,
      fun _ same => exec_plUnpack_packed t short same⟩
  · obtain ⟨present, rfl⟩ := exec_plUnpack_ok_iff.mp unpacked
    have length : (base.toList ++ unit).length = 8 + unit.length := by simp
    rw [exec_plPack_iff, paddedPayload_take_eq_self_iff (by omega), length]
    constructor
    · rintro ⟨full, zero⟩
      refine ⟨fun i above inBase => ?_, by omega, fun j above inUnit => ?_⟩
      · have := zero i above (by omega)
        rwa [getD_base_append, if_pos inBase] at this
      · have := zero (8 + j) (by omega) (by omega)
        rwa [getD_base_append, if_neg (by omega), Nat.add_sub_cancel_left] at this
    · rintro ⟨baseZero, full, unitZero⟩
      refine ⟨by omega, fun k above inside => ?_⟩
      rw [getD_base_append]
      split
      · exact baseZero k above ‹_›
      · exact unitZero (k - 8) (by omega) (by omega)

end Sys2Proof.Machine
end

section
/-! SUPPORT. The decoder (R110 to R127): FR.PARSE is the row of its buffer's type byte, what it answers in each case,
what it does not read, and what it delivers. -/

namespace Sys2Proof.Machine

/-! ### FR.PARSE is the row of its type byte -/

/-- With a header, FR.PARSE delivers at the length and under the flags of the type byte (R110, closing note). -/
theorem parse_eq_deliver (p : Params) {raw : List Byte} (header : 24 ≤ raw.length) :
    parse p raw = deliver (isRemoteType (readHeader raw).frameType) (isErrorType (readHeader raw).frameType)
      (frameLength p raw) (readHeader raw).toHeaderFields (raw.drop 24) := by
  have length : (raw.drop 24).length = raw.length - 24 := List.length_drop
  rcases Nat.lt_or_ge raw.length (24 + (frameLength p raw - 8)) with missing | present
  · rw [parse_of_missing_unit header missing, deliver_of_lt (by omega), length, Nat.add_sub_cancel' header]
  · rw [parse_of_present header present, deliver_of_le (by omega), drop_sixteen raw header, frameOf]

/-- The row of a type byte answers what FR.PARSE's pseudocode gives for that byte. -/
theorem exec_rowOf (p : Params) (t : Byte) (h : HeaderFields) (rest : List Byte) (s : State) :
    exec (rowOf p t h rest) s = .next (s.finish ((deliver (isRemoteType t) (isErrorType t)
      (payloadLength p t h.info h.payloadLengthLow).toNat h rest).map .frParse)) := by
  rw [payloadLength_toNat]
  rcases classify_cases p t with ⟨rfl, row⟩ | ⟨rfl, row⟩ | ⟨rfl, row⟩ | ⟨-, notRemote, notError, -, row⟩ |
    ⟨-, notRemote, notError, -, row⟩
  · rw [rowOf_of_canData h rest row, exec_frameCanData, row]; rfl
  · rw [rowOf_of_canRemote h rest row, exec_frameCanRemote, row]; rfl
  · rw [rowOf_of_canBusError h rest row, exec_frameCanBusError, row]; rfl
  · have remote : isRemoteType t = false := beq_false_of_ne notRemote
    have error : isErrorType t = false := beq_false_of_ne notError
    rw [rowOf_of_j1939Data h rest row, exec_frameJ1939Data, row, if_pos rfl, remote, error]
  · have remote : isRemoteType t = false := beq_false_of_ne notRemote
    have error : isErrorType t = false := beq_false_of_ne notError
    rw [rowOf_of_other h rest row, exec_frameOther, row, if_neg (by decide), remote, error]

theorem exec_frParse (raw : List Byte) (s : State) :
    exec (.frParse raw) s = .next (s.finish ((parse s.params raw).map .frParse)) := rfl

theorem decodeOp_frParse (x : Operands) : decodeOp 0x8#4 x = .frParse x.raw := rfl

/-- Settles O9: FR.PARSE of a buffer with a header and the row of its type byte deliver the same. -/
theorem parseRequestRunsItsFrameRow : Obligations.ParseRequestRunsItsFrameRow := by
  unfold Obligations.ParseRequestRunsItsFrameRow
  intro s x others i _ request decodes
  obtain ⟨header, rfl⟩ := decodeWire_ok_iff.mp decodes
  rw [step_request request, decodeRequest_mk, decodeOp_frParse, exec_frParse, exec_rowOf, parse_eq_deliver _ header,
    readHeader_frameType, readHeader_info, readHeader_payloadLengthLow, frameLength]

/-! ### What FR.PARSE answers -/

/-- Settles O35: without a header and with the whole frame, two of the three cases of FR.PARSE. -/
theorem frParseResult : Obligations.FrParseResult := by
  unfold Obligations.FrParseResult
  intro raw x s legal
  refine ⟨decodeOp_frParse x, fun short => ?_, ?_⟩
  · exact exec_frParse_of_error s (parse_of_no_header short)
  · intro header n w ext present
    have length : frameLength s.params raw = n := frameLength_of_legal legal raw
    rw [exec_frParse_of_ok s (parse_of_present header (by rwa [length])), length, frameOf, readHeader_frameType]
    rfl

/-- Settles O36: the third case of FR.PARSE. -/
theorem frParseMissingUnitBytes : Obligations.FrParseMissingUnitBytes := by
  unfold Obligations.FrParseMissingUnitBytes
  intro raw s legal header n missing
  have length : frameLength s.params raw = n := frameLength_of_legal legal raw
  rw [exec_frParse_of_error s (parse_of_missing_unit header (by rwa [length])), length]

/-! ### What FR.PARSE does not read -/

/-- Words that differ in no bit of a mask agree under the mask. -/
theorem and_eq_and_of_xor_and_eq_zero {w w' mask : BitVec 32} (agree : (w ^^^ w') &&& mask = 0#32) :
    w &&& mask = w' &&& mask := by
  rw [and_eq_zero_iff] at agree
  apply BitVec.eq_of_getLsbD_eq
  intro k hk
  have outside := agree k hk
  rw [BitVec.getLsbD_xor] at outside
  rw [BitVec.getLsbD_and, BitVec.getLsbD_and]
  by_cases same : w.getLsbD k = w'.getLsbD k
  · rw [same]
  · rw [outside (bne_iff_ne.mpr same), Bool.and_false, Bool.and_false]

/-- Words that agree under a mask agree under each part of it. -/
theorem and_eq_and_of_submask {w w' mask part : BitVec 32} (agree : w &&& mask = w' &&& mask)
    (submask : mask &&& part = part) : w &&& part = w' &&& part := by
  rw [← submask, ← BitVec.and_assoc, agree, BitVec.and_assoc]

/-- Wire identifiers that agree in the bits ID.DEC keeps of one of them decode alike (R81). -/
theorem decode_identifier_congr {w w' : BitVec 32}
    (agree : (w ^^^ w') &&& (if w &&& 0x20000000#32 ≠ 0#32 then 0x3FFFFFFF#32 else 0x200007FF#32) = 0#32) :
    rawIsExtended w = rawIsExtended w' ∧ rawIdentifier w = rawIdentifier w' := by
  have kept := and_eq_and_of_xor_and_eq_zero agree
  have flag : w &&& 0x20000000#32 = w' &&& 0x20000000#32 := and_eq_and_of_submask kept (by split <;> decide)
  have extended : rawIsExtended w = rawIsExtended w' := by
    rw [rawIsExtended_eq_decide, rawIsExtended_eq_decide, flag]
  refine ⟨extended, ?_⟩
  rw [rawIdentifier, rawIdentifier, ← extended]
  refine and_eq_and_of_submask kept ?_
  rw [rawIsExtended_eq_decide]
  by_cases flagSet : w &&& 0x20000000#32 ≠ 0#32
  · rw [if_pos flagSet, decide_eq_true flagSet]; decide
  · rw [if_neg flagSet, decide_eq_false flagSet]; decide

/-- A frame is J1939 by the map only with the strap's type byte. -/
theorem eq_ftJ1939Data_of_classify {p : Params} {t : Byte} (row : classify p t = .j1939Data) : t = p.ftJ1939Data := by
  rcases classify_cases p t with ⟨-, other⟩ | ⟨-, other⟩ | ⟨-, other⟩ | ⟨-, -, -, same, -⟩ | ⟨-, -, -, -, other⟩
  case inr.inr.inr.inl => exact same
  all_goals rw [other] at row; contradiction

/-- Under any strap, legal or not, the length is at most what the strap's type byte would ask for. -/
theorem frameLength_le_of_any_strap (p : Params) (raw : List Byte) :
    frameLength p raw ≤ if raw.getD 12 0#8 = p.ftJ1939Data
      then (raw.getD 14 0#8).toNat % 8 * 256 + (raw.getD 15 0#8).toNat else (raw.getD 15 0#8).toNat := by
  rw [frameLength, payloadLength_toNat]
  by_cases row : classify p (raw.getD 12 0#8) = .j1939Data
  · rw [if_pos row, if_pos (eq_ftJ1939Data_of_classify row)]
  · rw [if_neg row]
    split <;> omega

theorem frameLength_congr {p : Params} {raw raw' : List Byte} (type : raw.getD 12 0#8 = raw'.getD 12 0#8)
    (info : raw.getD 12 0#8 = p.ftJ1939Data → (raw.getD 14 0#8).toNat % 8 = (raw'.getD 14 0#8).toNat % 8)
    (low : raw.getD 15 0#8 = raw'.getD 15 0#8) : frameLength p raw = frameLength p raw' := by
  rw [frameLength, frameLength, payloadLength_toNat, payloadLength_toNat, ← type, ← low]
  by_cases row : classify p (raw.getD 12 0#8) = .j1939Data
  · rw [if_pos row, if_pos row, info (eq_ftJ1939Data_of_classify row)]
  · rw [if_neg row, if_neg row]

/-- Two buffers with headers, of equal need, are answered alike when they would deliver the same frame and are equally
long or both long enough. -/
theorem parse_congr {p : Params} {raw raw' : List Byte} (header : 24 ≤ raw.length) (header' : 24 ≤ raw'.length)
    (length : frameLength p raw = frameLength p raw')
    (frame : 24 + (frameLength p raw - 8) ≤ raw.length → 24 + (frameLength p raw - 8) ≤ raw'.length →
      frameOf (readHeader raw) ((raw.drop 16).take (frameLength p raw)) =
        frameOf (readHeader raw') ((raw'.drop 16).take (frameLength p raw)))
    (size : raw.length = raw'.length ∨
      24 + (frameLength p raw - 8) ≤ raw.length ∧ 24 + (frameLength p raw - 8) ≤ raw'.length) :
    parse p raw = parse p raw' := by
  rcases Nat.lt_or_ge raw.length (24 + (frameLength p raw - 8)) with missing | present
  · have same : raw.length = raw'.length := by omega
    rw [parse_of_missing_unit header missing, parse_of_missing_unit header' (by omega), length, same]
  · have present' : 24 + (frameLength p raw - 8) ≤ raw'.length := by omega
    rw [parse_of_present header present, parse_of_present header' (by rwa [← length]), ← length, frame present present']

/-- Payloads agree when their real bytes do, the base payload's and the unit's. -/
theorem take_drop_congr {raw raw' : List Byte} {n : Nat} (header : 24 ≤ raw.length) (header' : 24 ≤ raw'.length)
    (present : 24 + (n - 8) ≤ raw.length) (present' : 24 + (n - 8) ≤ raw'.length)
    (base : ∀ i, i < min n 8 → byteAt raw (16 + i) = byteAt raw' (16 + i))
    (unit : ∀ j, j < n - 8 → byteAt raw (24 + j) = byteAt raw' (24 + j)) :
    (raw.drop 16).take n = (raw'.drop 16).take n := by
  have asSlice (l : List Byte) : (l.drop 16).take n = slice l 16 (16 + n) := by rw [slice, Nat.add_sub_cancel_left]
  rw [asSlice, asSlice]
  apply eq_of_getD
  · rw [length_slice, length_slice]; omega
  · intro k hk
    have hk : k < n := by rw [length_slice] at hk; omega
    rw [getD_slice _ _ _ _ (by omega), getD_slice _ _ _ _ (by omega)]
    rcases Nat.lt_or_ge k 8 with inBase | inUnit
    · exact base k (by omega)
    · have := unit (k - 8) (by omega)
      rwa [show 24 + (k - 8) = 16 + k by omega] at this

/-- Settles O37: the two buffers have equal timestamp, decoded identifier, type, length and payload, which is all that
FR.PARSE makes of a buffer. -/
theorem frParseIgnoresUnusedParts : Obligations.FrParseIgnoresUnusedParts := by
  unfold Obligations.FrParseIgnoresUnusedParts
  intro raw raw' s header header' n w w' timestamp identifier type info low base unit size
  have bound : frameLength s.params raw ≤ n := frameLength_le_of_any_strap s.params raw
  have length : frameLength s.params raw = frameLength s.params raw' := frameLength_congr type info low
  rw [exec_frParse, exec_frParse, parse_congr header header' length (fun present present' => ?_) (by omega)]
  have time : memRead raw 0 8 = memRead raw' 0 8 :=
    memRead_congr _ _ 0 8 (by omega) (by omega) fun k hk => by simpa using timestamp k hk
  have type : raw.getD 12 0#8 = raw'.getD 12 0#8 := type
  have payload := take_drop_congr header header' present present' (fun i hi => base i (by omega))
    (fun j hj => unit j (by omega))
  obtain ⟨extended, decoded⟩ := decode_identifier_congr identifier
  rw [frameOf, frameOf, readHeader_timestamp, readHeader_timestamp, readHeader_identifier, readHeader_identifier,
    readHeader_frameType, readHeader_frameType, time, extended, decoded, type, payload]

/-- A J1939 length has 11 bits. -/
theorem lengthFields_le (info low : Byte) : info.toNat % 8 * 256 + low.toNat ≤ 2047 := by
  have := low.isLt
  omega

/-- Settles O38: 2063 bytes hold a header and the longest unit, and cutting behind them changes no part that is read. -/
theorem frParseReadsAtMost2063Bytes : Obligations.FrParseReadsAtMost2063Bytes := by
  unfold Obligations.FrParseReadsAtMost2063Bytes
  intro raw s long
  have bound := frameLength_le s.params raw
  have parsed := exec_frParse_of_ok s (parse_of_present (p := s.params) (raw := raw) (by omega) (by omega))
  refine ⟨_, parsed, ?_⟩
  have length : (raw.take 2063).length = 2063 := by rw [List.length_take]; omega
  have byte (k : Nat) (hk : k < 2063) : byteAt raw k = byteAt (raw.take 2063) k := (getD_take_of_lt hk).symm
  have identifier : memRead raw 8 4 = memRead (raw.take 2063) 8 4 :=
    memRead_congr _ _ 8 4 (by omega) (by omega) fun k hk => byte (8 + k) (by omega)
  have need : (if byteAt raw 12 = s.params.ftJ1939Data
      then (byteAt raw 14).toNat % 8 * 256 + (byteAt raw 15).toNat else (byteAt raw 15).toNat) ≤ 2047 := by
    have := lengthFields_le (byteAt raw 14) (byteAt raw 15)
    split <;> omega
  rw [← parsed]
  refine (frParseIgnoresUnusedParts raw (raw.take 2063) s (by omega) (by omega) (fun k hk => byte k (by omega)) ?_
    (byte 12 (by omega)) (fun _ => ?_) (byte 15 (by omega)) (fun i hi => byte _ (by omega))
    (fun j hj => byte _ (by omega)) (.inr ⟨by omega, by omega⟩)).symm
  · rw [identifier, BitVec.xor_self, BitVec.zero_and]
  · rw [byte 14 (by omega)]

/-! ### What FR.PARSE delivers -/

theorem not_remote_and_error (t : Byte) : ¬(isRemoteType t = true ∧ isErrorType t = true) := by
  revert t; decide

/-- Every delivered frame is valid (R127). -/
theorem delivered_of_parse {p : Params} {raw : List Byte} {f : LogicalFrame} (parsed : parse p raw = .ok f) :
    f.Delivered := by
  obtain ⟨-, -, frame, length⟩ := parse_eq_ok parsed
  refine ⟨length ▸ frameLength_le p raw, ?_⟩
  rw [frame]
  exact ⟨rawIdentifier_fits _, not_remote_and_error _⟩

/-- Settles O39: a delivered frame's identifier fits its mask, so only its length can keep FR.SER from writing it. -/
theorem parsedFrameIsValid : Obligations.ParsedFrameIsValid := by
  unfold Obligations.ParsedFrameIsValid
  intro raw s t f legal answered
  have parsed := (exec_frParse_ok_iff s).mp answered
  obtain ⟨-, -, -, length⟩ := parse_eq_ok parsed
  obtain ⟨atMost, fits, notBoth⟩ := delivered_of_parse parsed
  have bound := (identifierFits_iff_lt _ _).mp fits
  refine ⟨fun standard => ?_, fun extended => ?_, notBoth, atMost, fun notJ1939 => ?_, fun short => ?_, fun large => ?_⟩
  · rw [standard, idBits_false] at bound; omega
  · rw [extended, idBits_true] at bound; omega
  · rw [length, frameLength_of_legal legal, if_neg notJ1939]
    have := (raw.getD 15 0#8).isLt
    omega
  · exact ⟨_, exec_frSer_of_ok t (serialize_eq_ok_iff.mpr ⟨short, fits, rfl⟩)⟩
  · exact exec_frSer_of_error t (serialize_of_large large)

/-! ### The frame-type rows -/

/-- Settles O41: both rows deliver with both flags clear, each at its own length. -/
theorem otherAndJ1939RowsLookLikeData : Obligations.OtherAndJ1939RowsLookLikeData := by
  unfold Obligations.OtherAndJ1939RowsLookLikeData
  intro h rest t s low long ext frame
  refine ⟨?_, fun present => ?_, fun present => ?_⟩
  · exact lengthFields_le h.info h.payloadLengthLow
  · rw [exec_frameOther, finish_deliver_of_le s present, rawIsExtended_eq_decide]
  · rw [exec_frameJ1939Data, finish_deliver_of_le s present, rawIsExtended_eq_decide]

/-- A row's delivery without its real unit bytes is one TruncatedFrame response, `have` and `need` over the header. -/
theorem finish_deliver_of_lt {rtr err : Bool} {n : Nat} {h : HeaderFields} {rest : List Byte} (s : State)
    (missing : rest.length < n - 8) :
    s.finish ((deliver rtr err n h rest).map .frParse) =
      s.respond (.failed (.truncatedFrame .payload (24 + rest.length) (24 + (n - 8)))) := by
  rw [deliver_of_lt missing, Except.map, State.finish_error]

/-- Settles O42: the one failure of a row's delivery, at each row's length. -/
theorem frameRowsMissingUnitBytes : Obligations.FrameRowsMissingUnitBytes := by
  unfold Obligations.FrameRowsMissingUnitBytes
  intro h rest t s answer low long
  refine ⟨fun missing => ⟨?_, ?_, ?_, ?_⟩, fun missing => ?_⟩
  · rw [exec_frameCanData, finish_deliver_of_lt s missing]
  · rw [exec_frameCanRemote, finish_deliver_of_lt s missing]
  · rw [exec_frameCanBusError, finish_deliver_of_lt s missing]
  · rw [exec_frameOther, finish_deliver_of_lt s missing]
  · rw [exec_frameJ1939Data, finish_deliver_of_lt s missing]

end Sys2Proof.Machine
end

section
/-! SUPPORT. The encoder's output byte by byte (R130 to R137), and the canonical form (R66): FR.SER's outputs have it,
and a buffer that has it is what FR.SER makes of the frame it parses to (R142). -/

namespace Sys2Proof.Machine

/-! ### FR.SER's output -/

theorem trail_mod_eight (n : Nat) : trail n % 8 = 0 := (trail_bounds n).2.2

theorem decodeOp_frSer (x : Operands) : decodeOp 0x9#4 x = .frSer x.frame := rfl

theorem exec_frSer_of_fits (s : State) {f : LogicalFrame} (short : f.payload.length ≤ 255)
    (fits : IdentifierFits f.identifier f.isExtended) :
    exec (.frSer f) s = .next (s.respond (.ok (.frSer (serializedBytes f)))) :=
  exec_frSer_of_ok s (serialize_eq_ok_iff.mpr ⟨short, fits, rfl⟩)

theorem length_serializedBytes (f : LogicalFrame) : (serializedBytes f).length = 24 + trail f.payload.length := by
  rw [length_wireBytes, length_paddedPayload]; omega

theorem getD_serializedBytes_timestamp (f : LogicalFrame) {k : Nat} (h : k < 8) :
    (serializedBytes f).getD k 0#8 = 0#8 := by
  rw [getD_wireBytes_timestamp _ _ _ _ _ _ _ k h, Nat.zero_div]

theorem memRead_serializedBytes_identifier (f : LogicalFrame) :
    memRead (serializedBytes f) 8 4 = (f.identifier ||| idFlag f.isExtended).toNat :=
  memRead_wireBytes_identifier _ _ _ _ _ _ _ (BitVec.isLt _)

/-- From offset 16 on: the payload, then zeros. -/
theorem getD_serializedBytes_payload (f : LogicalFrame) (i : Nat) :
    (serializedBytes f).getD (16 + i) 0#8 = if i < f.payload.length then f.payload.getD i 0#8 else 0#8 := by
  rw [getD_wireBytes_tail, getD_paddedPayload]

/-- Settles O43: the two refusals in their order, and the output's bytes field by field. -/
theorem frSerResult : Obligations.FrSerResult := by
  unfold Obligations.FrSerResult
  intro f x s n
  refine ⟨decodeOp_frSer x, fun large => exec_frSer_of_error s (serialize_of_large large),
    fun short notFits => exec_frSer_of_error s (serialize_of_not_fits short notFits), fun short fits => ?_⟩
  have multiple := trail_mod_eight n
  have bound : trail n ≤ 248 := trail_le_of_multiple rfl (by omega)
  have length : (serializedBytes f).length = 24 + trail n := length_serializedBytes f
  refine ⟨serializedBytes f, exec_frSer_of_fits s short fits, length, by omega, by omega,
    fun k hk => getD_serializedBytes_timestamp f hk, ?_, fun _ => ?_, getD_wireBytes_flags _ _ _ _ _ _ _,
    getD_wireBytes_info _ _ _ _ _ _ _, getD_wireBytes_payloadLengthLow _ _ _ _ _ _ _,
    fun i _ => getD_serializedBytes_payload f i⟩
  · rw [memRead_serializedBytes_identifier, idFlag_eq]
  · exact getD_wireBytes_frameType _ _ _ _ _ _ _

/-- Settles O44: with the error flag set the remote flag does not reach the output. -/
theorem errorFlagTakesPrecedence : Obligations.ErrorFlagTakesPrecedence := by
  unfold Obligations.ErrorFlagTakesPrecedence
  intro f s short fits _ error
  have type (remote : Bool) : selectFrameType f.isErrorFrame remote = 2#8 := by rw [error]; rfl
  have same : serializedBytes { f with isRemoteFrame := false } = serializedBytes f := by
    simp only [serializedBytes, type]
  refine ⟨serializedBytes f, exec_frSer_of_fits s short fits, ?_, ?_⟩
  · rw [byteAt, getD_wireBytes_frameType, type]
  · rw [← same]
    exact exec_frSer_of_fits s short fits

/-! ### The outputs are canonical -/

theorem selectFrameType_le (isError isRemote : Bool) : (selectFrameType isError isRemote).toNat ≤ 2 := by
  revert isError isRemote; decide

/-- FR.SER's output meets every clause of the canonical form (R66). -/
theorem canonical_serializedBytes {f : LogicalFrame} (short : f.payload.length ≤ 255)
    (fits : IdentifierFits f.identifier f.isExtended) : Canonical (serializedBytes f) := by
  have low : (byteAt (serializedBytes f) 15).toNat = f.payload.length := by
    rw [byteAt, getD_wireBytes_payloadLengthLow, BitVec.toNat_ofNat]; omega
  rw [Canonical, low]
  refine ⟨length_serializedBytes f, fun k hk => getD_serializedBytes_timestamp f hk, ?_, ?_,
    getD_wireBytes_flags _ _ _ _ _ _ _, getD_wireBytes_info _ _ _ _ _ _ _, fun i _ padding => ?_, fun j _ padding => ?_⟩
  · rw [memRead_serializedBytes_identifier, BitVec.ofNat_toNat, BitVec.setWidth_eq]
    exact encoded_canonical fits
  · rw [byteAt, getD_wireBytes_frameType]
    exact selectFrameType_le _ _
  · rw [byteAt, getD_serializedBytes_payload, if_neg (by omega)]
  · rw [byteAt, show 24 + j = 16 + (8 + j) by omega, getD_serializedBytes_payload, if_neg (by omega)]

/-! ### Canonical buffers -/

/-- A buffer with a header, field by field. -/
theorem eq_wireBytes {raw : List Byte} (header : 24 ≤ raw.length) :
    raw = wireBytes (readHeader raw).timestamp.toNat (readHeader raw).identifier.toNat (raw.getD 12 0#8)
      (raw.getD 13 0#8) (raw.getD 14 0#8) (raw.getD 15 0#8) (raw.drop 16) := by
  conv_lhs => rw [← writeHeader_append_drop header, writeHeader_eq]
  rw [← drop_sixteen raw header, readHeader_frameType, readHeader_flags, readHeader_info, readHeader_payloadLengthLow]
  simp only [List.append_assoc]

/-- Eight zero bytes are timestamp 0. -/
theorem readHeader_timestamp_of_zeros {raw : List Byte} (header : 24 ≤ raw.length)
    (zero : ∀ k, k < 8 → byteAt raw k = 0#8) : (readHeader raw).timestamp = 0#64 := by
  have read : memRead raw 0 8 = memRead (zeros 8) 0 8 := by
    refine memRead_congr _ _ 0 8 (by omega) (by simp) fun k hk => ?_
    rw [Nat.zero_add, show raw.getD k 0#8 = 0#8 from zero k hk]
    simp [hk]
  rw [readHeader_timestamp, read]
  rfl

/-- A canonical wire identifier is the encoding of what it decodes to. -/
theorem encode_decoded_of_canonical {w : BitVec 32} (canonical : CanonicalWireId w) :
    rawIdentifier w ||| idFlag (rawIsExtended w) = w := by
  rw [rawIdentifier_or_idFlag, (clear_rawDropped_eq_self_iff w).mpr (dropped_of_canonical canonical)]

/-- The type FR.SER writes for a decoded type byte: 1 and 2 stay, every other becomes 0 (R142). -/
theorem selectFrameType_of_type (t : Byte) :
    selectFrameType (isErrorType t) (isRemoteType t) = if t = 1#8 ∨ t = 2#8 then t else 0#8 := by
  revert t; decide

/-- The types FR.SER writes are those it keeps. -/
theorem selectFrameType_of_le {t : Byte} (h : t.toNat ≤ 2) : selectFrameType (isErrorType t) (isRemoteType t) = t := by
  revert t; decide

/-- The length of a canonical frame is its byte 15, since its type byte is not FT_J1939_DATA. -/
theorem frameLength_of_canonical {p : Params} (legal : p.Legal) {raw : List Byte} (canonical : Canonical raw) :
    frameLength p raw = (raw.getD 15 0#8).toNat := by
  dsimp only [Canonical, byteAt] at canonical
  obtain ⟨-, -, -, type, -⟩ := canonical
  rw [frameLength_of_legal legal, if_neg]
  intro same
  have above := legal.1
  rw [← same] at above
  omega

theorem parse_of_canonical {p : Params} (legal : p.Legal) {raw : List Byte} (canonical : Canonical raw) :
    ∃ f, parse p raw = .ok f := by
  have length := frameLength_of_canonical legal canonical
  have unit := (trail_bounds (raw.getD 15 0#8).toNat).1
  have size : raw.length = 24 + trail (raw.getD 15 0#8).toNat := canonical.1
  exact ⟨_, parse_of_present (by omega) (by omega)⟩

/-- Behind its header's first 16 bytes a canonical frame is its payload, padded. -/
theorem paddedPayload_of_canonical {raw : List Byte} (canonical : Canonical raw) :
    paddedPayload ((raw.drop 16).take (raw.getD 15 0#8).toNat) = raw.drop 16 := by
  dsimp only [Canonical, byteAt] at canonical
  obtain ⟨size, -, -, -, -, -, base, unit⟩ := canonical
  have bounds := trail_bounds (raw.getD 15 0#8).toNat
  have length : (raw.drop 16).length = 8 + trail (raw.getD 15 0#8).toNat := by rw [List.length_drop]; omega
  rw [paddedPayload_take_eq_self_iff (by omega)]
  refine ⟨length, fun k padding inside => ?_⟩
  have byte : (raw.drop 16).getD k 0#8 = raw.getD (16 + k) 0#8 := by
    rw [List.getD_eq_getElem?_getD, List.getElem?_drop, List.getD_eq_getElem?_getD]
  rw [byte]
  rcases Nat.lt_or_ge k 8 with inBase | inUnit
  · exact base k inBase (by omega)
  · have := unit (k - 8) (by omega) (by omega)
    rwa [show 24 + (k - 8) = 16 + k by omega] at this

/-- FR.SER makes a canonical buffer again of the frame FR.PARSE delivers from it. -/
theorem serializedBytes_of_canonical {p : Params} (legal : p.Legal) {raw : List Byte} {f : LogicalFrame}
    (parsed : parse p raw = .ok f) (canonical : Canonical raw) : serializedBytes f = raw := by
  obtain ⟨header, -, frame, length⟩ := parse_eq_ok parsed
  rw [frameLength_of_canonical legal canonical] at frame length
  have padded := paddedPayload_of_canonical canonical
  dsimp only [Canonical, byteAt] at canonical
  obtain ⟨-, timestamp, identifier, type, flags, info, -, -⟩ := canonical
  have wireId : f.identifier ||| idFlag f.isExtended = (readHeader raw).identifier := by
    rw [frame]; exact encode_decoded_of_canonical identifier
  have typeByte : selectFrameType f.isErrorFrame f.isRemoteFrame = raw.getD 12 0#8 := by
    rw [frame, frameOf, readHeader_frameType]; exact selectFrameType_of_le type
  have payload : paddedPayload f.payload = raw.drop 16 := by
    rw [frame]; exact padded
  have low : BitVec.ofNat 8 f.payload.length = raw.getD 15 0#8 := by
    rw [length, BitVec.ofNat_toNat, BitVec.setWidth_eq]
  rw [eq_wireBytes header, readHeader_timestamp_of_zeros header timestamp, flags, info, serializedBytes, wireId,
    typeByte, payload, low]
  rfl

/-- Settles O48: an output is canonical; a canonical buffer parses under the configured strap, and its frame serialises
to it. -/
theorem encoderOutputsAreTheCanonicalFrames : Obligations.EncoderOutputsAreTheCanonicalFrames := by
  unfold Obligations.EncoderOutputsAreTheCanonicalFrames
  intro b s
  constructor
  · rintro ⟨f, answered⟩
    obtain ⟨short, fits, rfl⟩ := serialize_eq_ok_iff.mp ((exec_frSer_ok_iff s).mp answered)
    exact canonical_serializedBytes short fits
  · intro canonical
    obtain ⟨f, parsed⟩ := parse_of_canonical params_legal canonical
    obtain ⟨-, -, -, length⟩ := parse_eq_ok parsed
    obtain ⟨-, fits, -⟩ := delivered_of_parse parsed
    have short : f.payload.length ≤ 255 := by
      rw [length, frameLength_of_canonical params_legal canonical]
      have := (b.getD 15 0#8).isLt
      omega
    have answered := exec_frSer_of_fits s short fits
    rw [serializedBytes_of_canonical params_legal parsed canonical] at answered
    exact ⟨f, answered⟩

/-- Without both flags set the remote flag is what parsing the output gives back. -/
theorem not_error_and_remote {f : LogicalFrame} (notBoth : ¬(f.isRemoteFrame = true ∧ f.isErrorFrame = true)) :
    (!f.isErrorFrame && f.isRemoteFrame) = f.isRemoteFrame := by
  revert notBoth; cases f.isErrorFrame <;> simp

/-- Settles O47: a delivered frame lies in FR.SER's domain but for its length; its output is canonical, so it can be the
buffer only if that is, and then it is. -/
theorem parsedFrameSerializesToCanonicalForm : Obligations.ParsedFrameSerializesToCanonicalForm := by
  unfold Obligations.ParsedFrameSerializesToCanonicalForm
  intro raw f s t legal answered
  have parsed := (exec_frParse_ok_iff s).mp answered
  obtain ⟨-, fits, notBoth⟩ := delivered_of_parse parsed
  refine ⟨fun large => exec_frSer_of_error t (serialize_of_large large), fun short => ?_⟩
  have canonical := canonical_serializedBytes short fits
  refine ⟨serializedBytes f, exec_frSer_of_fits t short fits, canonical, ⟨?_, ?_⟩, ?_, ?_⟩
  · rintro rfl; exact canonical
  · exact serializedBytes_of_canonical legal parsed
  · have back := exec_frParse_of_ok s (parse_serializedBytes legal short fits)
    rwa [not_error_and_remote notBoth] at back
  · obtain ⟨-, -, frame, -⟩ := parse_eq_ok parsed
    rw [byteAt, getD_wireBytes_frameType, frame, frameOf, readHeader_frameType]
    exact selectFrameType_of_type _

end Sys2Proof.Machine
end

section
/-! SUPPORT. The step (R17, R42, R162, R169): every instruction answers once and changes nothing else; a run answers
every request with the response it gets alone. -/

namespace Sys2Proof.Machine

/-! ### One answer per instruction -/

/-- An instruction that ends in a row's delivery answers with a frame or with TruncatedFrame. -/
theorem answers_of_exec_deliver {i : Instr} {s : State} {rtr err : Bool} {n : Nat} {h : HeaderFields} {rest : List Byte}
    (row : exec i s = .next (s.finish ((deliver rtr err n h rest).map .frParse))) :
    ∃ r : Response, exec i s = .next (s.respond r) ∧
      ((∃ v, r = .ok v) ∨ ∃ place supplied needed, r = .failed (.truncatedFrame place supplied needed)) := by
  rw [row]
  rcases Nat.lt_or_ge rest.length (n - 8) with missing | present
  · exact ⟨_, congrArg _ (finish_deliver_of_lt s missing), .inr ⟨_, _, _, rfl⟩⟩
  · exact ⟨_, congrArg _ (finish_deliver_of_le s present), .inl ⟨_, rfl⟩⟩

/-- Every instruction answers once, in one of the ways its rule lists (R162, R71). -/
theorem exec_answers_as_listed (i : Instr) (s : State) :
    ∃ r : Response, exec i s = .next (s.respond r) ∧ r.AllowedFor i := by
  cases i with
  | idDec w => exact ⟨_, exec_idDec s w, _, rfl⟩
  | plTotal n => exact ⟨_, exec_plTotal s n, _, rfl⟩
  | plTrail n => exact ⟨_, exec_plTrail s n, _, rfl⟩
  | plSplit n => exact ⟨_, exec_plSplit s n, _, rfl⟩
  | plPack payload => exact ⟨_, exec_plPack s payload, _, rfl⟩
  | idEnc id ext =>
    by_cases fits : IdentifierFits id ext
    · exact ⟨_, exec_idEnc_of_fits s fits, .inl ⟨_, rfl⟩⟩
    · exact ⟨_, exec_idEnc_of_not_fits s fits, .inr ⟨_, _, rfl⟩⟩
  | plUnpack base n unit =>
    rcases Nat.lt_or_ge unit.length (n.toNat - 8) with missing | present
    · exact ⟨_, exec_plUnpack_of_lt s missing, .inr ⟨_, _, _, rfl⟩⟩
    · exact ⟨_, exec_plUnpack_of_le s present, .inl ⟨_, rfl⟩⟩
  | frParse raw =>
    rcases parse_cases s.params raw with ⟨-, parsed⟩ | ⟨-, -, parsed⟩ | ⟨-, -, parsed⟩
    · exact ⟨_, exec_frParse_of_error s parsed, .inr ⟨_, _, _, rfl⟩⟩
    · exact ⟨_, exec_frParse_of_error s parsed, .inr ⟨_, _, _, rfl⟩⟩
    · exact ⟨_, exec_frParse_of_ok s parsed, .inl ⟨_, rfl⟩⟩
  | frSer f =>
    rcases Nat.lt_or_ge 255 f.payload.length with large | short
    · exact ⟨_, exec_frSer_of_error s (serialize_of_large large), .inr (.inl ⟨_, rfl⟩)⟩
    · by_cases fits : IdentifierFits f.identifier f.isExtended
      · exact ⟨_, exec_frSer_of_fits s short fits, .inl ⟨_, rfl⟩⟩
      · exact ⟨_, exec_frSer_of_error s (serialize_of_not_fits short fits), .inr (.inr ⟨_, _, rfl⟩)⟩
  | badOp0 | badOpA | badOpB | badOpC | badOpD | badOpE | badOpF => exact ⟨.badOp, rfl, rfl⟩
  | frameCanData h rest => exact answers_of_exec_deliver (exec_frameCanData s h rest)
  | frameCanRemote h rest => exact answers_of_exec_deliver (exec_frameCanRemote s h rest)
  | frameCanBusError h rest => exact answers_of_exec_deliver (exec_frameCanBusError s h rest)
  | frameJ1939Data h rest => exact answers_of_exec_deliver (exec_frameJ1939Data s h rest)
  | frameOther t h rest => exact answers_of_exec_deliver (exec_frameOther s t h rest)

/-- Settles O10: giving a response leaves the strap, the requests and the earlier responses. -/
theorem everyInstructionAnswersOnceAsListed : Obligations.EveryInstructionAnswersOnceAsListed := by
  unfold Obligations.EveryInstructionAnswersOnceAsListed
  exact exec_answers_as_listed

/-! ### Unassigned codes -/

/-- Settles O18: the decoder reads the codes 0 and 10 to 15 as the unassigned rows, each of which answers BAD_OP. -/
theorem unassignedCodesAnswerBadOp : Obligations.UnassignedCodesAnswerBadOp := by
  unfold Obligations.UnassignedCodesAnswerBadOp
  intro s
  refine ⟨rfl, rfl, rfl, rfl, rfl, rfl, rfl, fun op x unassigned => ?_⟩
  rcases selectCode_cases op with
    rfl | rfl | rfl | rfl | rfl | rfl | rfl | rfl | rfl | rfl | rfl | rfl | rfl | rfl | rfl | rfl
  case inl => rfl
  iterate 9 exact absurd unassigned (by decide)
  all_goals rfl

/-- Settles O17: the codes of R151 as the model defines them; none of the five kinds of response has 5 to 7. -/
theorem statusCodesOfResponses : Obligations.StatusCodesOfResponses := by
  unfold Obligations.StatusCodesOfResponses
  refine ⟨fun _ => rfl, fun _ _ _ => rfl, fun _ _ => rfl, fun _ => rfl, rfl, rfl, rfl, fun r => ?_⟩
  rcases r with _ | ⟨_ | _ | _⟩ | _ <;> simp [Response.status, Failure.status]

/-! ### The step -/

/-- Settles O7: the step's second case. -/
theorem stepRunsTheDecodedRequest : Obligations.StepRunsTheDecodedRequest := by
  unfold Obligations.StepRunsTheDecodedRequest
  exact fun _ _ _ request => step_request request

/-- Settles O8: the step's first case. -/
theorem idleStepChangesNothing : Obligations.IdleStepChangesNothing := by
  unfold Obligations.IdleStepChangesNothing
  exact fun _ idle => step_idle idle

/-- Settles O11: an idle step keeps both lists; another moves one request out and one response in. -/
theorem stepAlwaysAnswersTheNextRequest : Obligations.StepAlwaysAnswersTheNextRequest := by
  unfold Obligations.StepAlwaysAnswersTheNextRequest
  intro s
  cases requests : s.inFlight with
  | nil => exact ⟨s, step_idle requests, rfl, requests, List.prefix_refl _, by rw [requests]⟩
  | cons rq others =>
    obtain ⟨r, answered, -⟩ := exec_answers_as_listed (decodeRequest rq) { s with inFlight := others }
    refine ⟨_, (step_request requests).trans answered, rfl, rfl, List.prefix_append _ _, ?_⟩
    simp; omega

/-- A step gives its request the response the request gets alone (R169). -/
theorem step_answers_as_alone {s : State} {rq : Request} {others : List Request} (request : s.inFlight = rq :: others) :
    ∃ r : Response, step s = .next { s with inFlight := others, responses := s.responses ++ [r] } ∧
      responseAlone s.params rq = some r := by
  obtain ⟨r, answered, alone⟩ :=
    responseDependsOnRequestAndStrapAlone s (State.alone s.params rq) rq others [] rfl request rfl
  refine ⟨r, answered, ?_⟩
  rw [responseAlone, alone]
  rfl

/-- The state after every request has been answered in turn. -/
theorem run_answers_all (p : Params) (requests : List Request) (responses : List Response) :
    ∃ given : List Response, given.map some = requests.map (responseAlone p) ∧
      Host.Core.run core requests.length (⟨p, requests, responses⟩ : State) = .next ⟨p, [], responses ++ given⟩ := by
  induction requests generalizing responses with
  | nil => exact ⟨[], rfl, by rw [List.append_nil]; rfl⟩
  | cons rq others ih =>
    obtain ⟨r, answered, alone⟩ := step_answers_as_alone (s := ⟨p, rq :: others, responses⟩) rfl
    obtain ⟨given, all, ran⟩ := ih (responses ++ [r])
    refine ⟨r :: given, ?_, ?_⟩
    · rw [List.map_cons, List.map_cons, all, alone]
    · rw [List.length_cons, run_succ _ answered, ran, List.append_assoc, List.singleton_append]

/-- Settles O13: the run's responses are the earlier ones and those given in turn. -/
theorem runAnswersEveryRequestAsIfAlone : Obligations.RunAnswersEveryRequestAsIfAlone := by
  unfold Obligations.RunAnswersEveryRequestAsIfAlone
  intro s
  obtain ⟨given, all, ran⟩ := run_answers_all s.params s.inFlight s.responses
  exact ⟨_, ran, rfl, rfl, by rw [List.map_append, all]⟩

/-- Settles O14: each request keeps the response it gets alone, so the responses are permuted as the requests are. -/
theorem answeringOrderOnlyReordersResponses : Obligations.AnsweringOrderOnlyReordersResponses := by
  unfold Obligations.AnsweringOrderOnlyReordersResponses
  intro s s' params responses reordered
  obtain ⟨t, ran, -, -, answers⟩ := runAnswersEveryRequestAsIfAlone s
  obtain ⟨t', ran', -, -, answers'⟩ := runAnswersEveryRequestAsIfAlone s'
  refine ⟨t, t', ran, ran', ?_⟩
  rw [← List.map_perm_map_iff (Option.some_injective Response), answers, answers', params, responses]
  exact (reordered.map _).append_left _

/-! ### Reset -/

/-- Settles O15: reset writes the two ports and nothing else. -/
theorem resetEmptiesThePortsAndKeepsTheStrap : Obligations.ResetEmptiesThePortsAndKeepsTheStrap := by
  unfold Obligations.ResetEmptiesThePortsAndKeepsTheStrap
  exact ⟨fun s => ⟨s.applyReset_inFlight, s.applyReset_responses, s.applyReset_params⟩, rfl, rfl, rfl⟩

/-- Settles O16: the block just reset and the other block hold the same strap; nothing else bears on the response. -/
theorem firstTransactionAfterResetIsOrdinary : Obligations.FirstTransactionAfterResetIsOrdinary := by
  unfold Obligations.FirstTransactionAfterResetIsOrdinary
  intro s t k rq others params request
  have issued : (s.applyReset.issue k rq).inFlight = [rq] := by simp
  obtain ⟨r, first, ordinary⟩ := responseDependsOnRequestAndStrapAlone (s.applyReset.issue k rq) t rq [] others
    (by rw [params]; rfl) issued request
  exact ⟨r, first, ordinary⟩

end Sys2Proof.Machine
end

section
/-! SUPPORT. The invariant (R8, R19, R96): every instruction the ports can carry is answered with a response that fits
its port, so every step keeps the invariant. -/

namespace Sys2Proof.Machine

/-! ### Answers that fit their ports -/

/-- An instruction that ends in a row's delivery fits the FR.PARSE port, for a length of at most 2047 and flags that are
not both set. -/
theorem fits_of_exec_deliver {i : Instr} {s : State} {rtr err : Bool} {n : Nat} {h : HeaderFields} {rest : List Byte}
    (row : exec i s = .next (s.finish ((deliver rtr err n h rest).map .frParse))) (bound : n ≤ 2047)
    (notBoth : ¬(rtr = true ∧ err = true)) : ∃ r : Response, exec i s = .next (s.respond r) ∧ r.Fits := by
  rw [row]
  rcases Nat.lt_or_ge rest.length (n - 8) with missing | present
  · refine ⟨_, congrArg _ (finish_deliver_of_lt s missing), ?_, ?_⟩ <;> omega
  · refine ⟨_, congrArg _ (finish_deliver_of_le s present), ?_, rawIdentifier_fits h.identifier, notBoth⟩
    exact (length_unpacked present).trans_le bound

theorem exec_frParse_fits (raw : List Byte) (s : State) :
    ∃ r : Response, exec (.frParse raw) s = .next (s.respond r) ∧ r.Fits := by
  have bound := frameLength_le s.params raw
  rcases parse_cases s.params raw with ⟨short, parsed⟩ | ⟨_, missing, parsed⟩ | ⟨-, -, parsed⟩
  · exact ⟨_, exec_frParse_of_error s parsed, short, rfl⟩
  · exact ⟨_, exec_frParse_of_error s parsed, missing, by omega⟩
  · exact ⟨_, exec_frParse_of_ok s parsed, delivered_of_parse parsed⟩

theorem exec_frSer_fits {f : LogicalFrame} (carried : f.payload.length ≤ 2047) (s : State) :
    ∃ r : Response, exec (.frSer f) s = .next (s.respond r) ∧ r.Fits := by
  rcases Nat.lt_or_ge 255 f.payload.length with large | short
  · exact ⟨_, exec_frSer_of_error s (serialize_of_large large), large, carried⟩
  · by_cases fits : IdentifierFits f.identifier f.isExtended
    · exact ⟨_, exec_frSer_of_fits s short fits, canonical_serializedBytes short fits⟩
    · exact ⟨_, exec_frSer_of_error s (serialize_of_not_fits short fits), fits⟩

theorem exec_plUnpack_fits (base : BasePayload) (n : BitVec 11) (unit : List Byte) (s : State) :
    ∃ r : Response, exec (.plUnpack base n unit) s = .next (s.respond r) ∧ r.Fits := by
  have : n.toNat < 2048 := n.isLt
  rcases Nat.lt_or_ge unit.length (n.toNat - 8) with missing | present
  · exact ⟨_, exec_plUnpack_of_lt s missing, missing, by omega⟩
  · exact ⟨_, exec_plUnpack_of_le s present, (length_unpacked present).trans_le (by omega)⟩

/-- The dropped bits of a wire identifier never include the flag (R81). -/
theorem rawDropped_and_extFlag (w : BitVec 32) : rawDropped w &&& 0x20000000#32 = 0#32 := by
  rw [flag_iff, getLsbD_rawDropped w 29 (by decide)]
  simp

/-- An instruction the ports can carry is answered with a response that fits its port. -/
theorem exec_fits {i : Instr} {p : Params} (wf : i.wellFormed p = true) (s : State) :
    ∃ r : Response, exec i s = .next (s.respond r) ∧ r.Fits := by
  have low (h : HeaderFields) : h.payloadLengthLow.toNat ≤ 2047 := by
    have := lengthFields_le h.info h.payloadLengthLow
    omega
  cases i with
  | idDec w =>
    exact ⟨_, exec_idDec s w, rawIdentifier_fits w, rawDropped_and_extFlag w, rawIdentifier_and_rawDropped w⟩
  | idEnc id ext =>
    by_cases fits : IdentifierFits id ext
    · exact ⟨_, exec_idEnc_of_fits s fits, encoded_canonical fits⟩
    · exact ⟨_, exec_idEnc_of_not_fits s fits, fits⟩
  | plTotal n =>
    have bound := trail_toNat_le n
    have multiple := trail_mod_eight n.toNat
    refine ⟨_, exec_plTotal s n, ?_, ?_, ?_⟩ <;> omega
  | plTrail n => exact ⟨_, exec_plTrail s n, trail_toNat_le n, trail_mod_eight n.toNat⟩
  | plSplit n =>
    have : n.toNat < 2048 := n.isLt
    refine ⟨_, exec_plSplit s n, ?_, ?_⟩ <;> omega
  | plPack payload =>
    have carried : payload.length ≤ 2047 := of_decide_eq_true wf
    have bound : trail payload.length ≤ 2040 := trail_le_of_multiple rfl (by omega)
    refine ⟨_, exec_plPack s payload, ?_, ?_⟩ <;> rw [length_packUnit]
    · exact bound
    · exact trail_mod_eight _
  | plUnpack base n unit => exact exec_plUnpack_fits base n unit s
  | frParse raw => exact exec_frParse_fits raw s
  | frSer f => exact exec_frSer_fits (of_decide_eq_true wf) s
  | badOp0 | badOpA | badOpB | badOpC | badOpD | badOpE | badOpF => exact ⟨.badOp, rfl, trivial⟩
  | frameCanData h rest => exact fits_of_exec_deliver (exec_frameCanData s h rest) (low h) (by decide)
  | frameCanRemote h rest => exact fits_of_exec_deliver (exec_frameCanRemote s h rest) (low h) (by decide)
  | frameCanBusError h rest => exact fits_of_exec_deliver (exec_frameCanBusError s h rest) (low h) (by decide)
  | frameJ1939Data h rest => exact fits_of_exec_deliver (exec_frameJ1939Data s h rest) (lengthFields_le _ _) (by decide)
  | frameOther t h rest => exact fits_of_exec_deliver (exec_frameOther s t h rest) (low h) (by decide)

/-- Settles O49: each row's answer lies in its port's range; only PL.PACK and FR.SER need the payload port's bound for
it. -/
theorem everyAnswerFitsItsPort : Obligations.EveryAnswerFitsItsPort := by
  unfold Obligations.EveryAnswerFitsItsPort
  exact fun _ s _ wf => exec_fits wf s

/-! ### The invariant -/

/-- Settles O50: the request a step takes out is one the port can carry, so the response it puts in fits; the strap and
all else stay. -/
theorem stepKeepsTheInvariant : Obligations.StepKeepsTheInvariant := by
  unfold Obligations.StepKeepsTheInvariant
  rintro s s' ⟨legal, requests, responses⟩ stepped
  cases inFlight : s.inFlight with
  | nil =>
    rw [step_idle inFlight] at stepped
    injection stepped with same
    exact same ▸ ⟨legal, requests, responses⟩
  | cons rq others =>
    rw [inFlight, List.forall_mem_cons] at requests
    obtain ⟨carried, othersCarried⟩ := requests
    obtain ⟨r, answered, fits⟩ := exec_fits carried { s with inFlight := others }
    rw [step_request inFlight, answered] at stepped
    injection stepped with same
    subst same
    refine ⟨legal, othersCarried, ?_⟩
    rw [State.respond_responses, List.forall_mem_append, List.forall_mem_singleton]
    exact ⟨responses, fits⟩

/-- Settles O51: the configured parameters are legal whatever the opaque constants are, and the ports are empty. -/
theorem resetMeetsTheInvariant : Obligations.ResetMeetsTheInvariant := by
  unfold Obligations.ResetMeetsTheInvariant
  exact ⟨params_legal, List.forall_mem_nil _, List.forall_mem_nil _⟩

end Sys2Proof.Machine
end
